-- ==== Sys2Proof/Word.lean ====
section
/-! DEFINITION. The widths the spec fixes (00_scope.md R6): a register, an immediate and an address are 32 bits, a memory cell is 8. -/

namespace Sys2Proof

/-- A register cell, immediate or address: a raw 32-bit pattern (00_scope.md R9, 10_state.md R21). -/
abbrev Word := BitVec 32

/-- A byte of memory, of an operand slot, or of a host stream (00_scope.md R6). -/
abbrev Byte := BitVec 8

end Sys2Proof
end

