-- ==== Sys2Proof/Syntax.lean ====
section
/-! DEFINITION. The instructions as syntax: the raw 8-byte record of 30_encoding.md R80 and the decoded variants of R96. -/

namespace Sys2Proof

/-- The index of a register cell, 0 to 21 (10_state.md R20). -/
abbrev RegIdx := Fin 22

/-- R3, the cell the trap sub-operations use (10_state.md R24). -/
abbrev RegIdx.r3 : RegIdx := 3
/-- The program counter is cell 16 (10_state.md R20). -/
abbrev RegIdx.pc : RegIdx := 16
abbrev RegIdx.sl : RegIdx := 17
abbrev RegIdx.sb : RegIdx := 18
abbrev RegIdx.sp : RegIdx := 19
abbrev RegIdx.fp : RegIdx := 20
abbrev RegIdx.hp : RegIdx := 21

/-- The fields of an instruction record as they stand in memory, which are also the five fields of the Instruction
Register: the operand fields are raw bytes (10_state.md R31, 30_encoding.md R80). -/
structure Record where
  opcode : Byte
  op1 : Byte
  op2 : Byte
  op3 : Byte
  imm : Word
deriving DecidableEq, Repr

/-- One constructor for each row of the opcode table, carrying its validated operands (30_encoding.md R86, R96).
The operands stand in slot order: destination (or stored register), sources, immediate (R84). -/
inductive Instr where
  | jmp (target : Word)
  | mov (rd rs : RegIdx)
  | movi (rd : RegIdx) (imm : Word)
  | lda (rd : RegIdx) (addr : Word)
  | str (rs : RegIdx) (addr : Word)
  | ldr (rd : RegIdx) (addr : Word)
  | stb (rs : RegIdx) (addr : Word)
  | ldb (rd : RegIdx) (addr : Word)
  | add (rd rs1 rs2 : RegIdx)
  | addi (rd rs : RegIdx) (imm : Word)
  | sub (rd rs1 rs2 : RegIdx)
  | subi (rd rs : RegIdx) (imm : Word)
  | mul (rd rs1 rs2 : RegIdx)
  | muli (rd rs : RegIdx) (imm : Word)
  | div (rd rs1 rs2 : RegIdx)
  | sdiv (rd rs1 rs2 : RegIdx)
  | divi (rd rs : RegIdx) (imm : Word)
  | trp (code : Word)
deriving DecidableEq, Repr

end Sys2Proof
end

