-- ==== Sys2Proof/WellFormed.lean ====
section
/-! DEFINITION. The check that makes a raw record an instruction (30_encoding.md R85, R87, R88). A decoded `Instr` needs no check of its own: its register fields are `RegIdx`, so R96's "Fin 22" holds by its type. -/

namespace Sys2Proof

/-- A checked operand slot holds a valid register index, at most 21 (30_encoding.md R88). -/
def slotValid (b : Byte) : Bool := b.toNat ≤ 21

/-- The first `n` operand slots of a record are valid; the others are don't-care (30_encoding.md R87, R89). -/
def Record.slotsValid (r : Record) (n : Nat) : Bool :=
  (n < 1 || slotValid r.op1) && (n < 2 || slotValid r.op2) && (n < 3 || slotValid r.op3)

/-- A record is well formed under an arity table when its opcode is in the table and its significant slots are
valid (40_fetch_decode.md R116). The table of this hardware is `arityClass` in Decode.lean. -/
def Record.wellFormed (classOf : Byte → Option Nat) (r : Record) : Bool :=
  match classOf r.opcode with
  | none => false
  | some n => r.slotsValid n

end Sys2Proof
end

