-- ==== Sys2Proof/Decode.lean ====
section
/-! DEFINITION. The instruction_decoder (40_fetch_decode.md R115 to R120), the byte order of multi-byte values (20_memory.md R54), and after the decoder its encoder. -/

namespace Sys2Proof

/-! ## Byte order -/

/-- The value of a little-endian byte string: the sum of byte k times 2^(8k) (00_scope.md R10). -/
def leNat : List Byte → Nat
  | [] => 0
  | b :: bs => b.toNat + 256 * leNat bs

/-- The low `n` bytes of a value, least significant first (00_scope.md R10, MemWrite). -/
def leBytes : Nat → Nat → List Byte
  | 0, _ => []
  | n + 1, v => BitVec.ofNat 8 v :: leBytes n (v / 256)

/-! ## The record -/

/-- The record held by eight bytes in address order (30_encoding.md R80, R82). -/
def recordOf (b0 b1 b2 b3 b4 b5 b6 b7 : Byte) : Record :=
  { opcode := b0, op1 := b1, op2 := b2, op3 := b3, imm := BitVec.ofNat 32 (leNat [b4, b5, b6, b7]) }

/-- The record at the head of a byte string, and the bytes after it; none if fewer than eight stand there. -/
def takeRecord : List Byte → Option (Record × List Byte)
  | b0 :: b1 :: b2 :: b3 :: b4 :: b5 :: b6 :: b7 :: rest => some (recordOf b0 b1 b2 b3 b4 b5 b6 b7, rest)
  | _ => none

/-- The eight bytes of a record in address order (30_encoding.md R80). -/
def Record.bytes (r : Record) : List Byte :=
  r.opcode :: r.op1 :: r.op2 :: r.op3 :: leBytes 4 r.imm.toNat

/-! ## The decoder -/

/-- Why a record is no instruction (40_fetch_decode.md R116). -/
inductive DecodeFault where
  /-- The opcode byte is outside the set of 18 legal values (30_encoding.md R91). -/
  | invalidOpcode
  /-- A significant operand slot is above 21 (30_encoding.md R92). -/
  | invalidOperand
deriving DecidableEq, Repr

/-- The number of significant operand slots of each legal opcode byte (30_encoding.md R86, R87; log 10 for the
pairing of numbers with names and for MOVI's class). -/
def arityClass (opcode : Byte) : Option Nat :=
  match opcode.toNat with
  | 1 => some 0
  | 7 => some 2
  | 8 => some 1
  | 9 => some 1
  | 10 => some 1
  | 11 => some 1
  | 12 => some 1
  | 13 => some 1
  | 18 => some 3
  | 19 => some 2
  | 20 => some 3
  | 21 => some 2
  | 22 => some 3
  | 23 => some 2
  | 24 => some 3
  | 25 => some 3
  | 26 => some 2
  | 31 => some 0
  | _ => none

/-- The register a significant slot names, if its byte is a valid index (30_encoding.md R83, R88). -/
def slotReg (b : Byte) : Except DecodeFault RegIdx :=
  if h : b.toNat < 22 then .ok ⟨b.toNat, h⟩ else .error .invalidOperand

/-- Class 1: op1 is checked, op2 and op3 are dropped (30_encoding.md R87, R89). -/
def decodeRI (r : Record) (mk : RegIdx → Word → Instr) : Except DecodeFault Instr :=
  match slotReg r.op1 with
  | .error e => .error e
  | .ok a => .ok (mk a r.imm)

/-- Class 2 with an immediate: op1 and op2 are checked, op3 is dropped (30_encoding.md R87, R89). -/
def decodeRRI (r : Record) (mk : RegIdx → RegIdx → Word → Instr) : Except DecodeFault Instr :=
  match slotReg r.op1, slotReg r.op2 with
  | .error e, _ => .error e
  | .ok _, .error e => .error e
  | .ok a, .ok b => .ok (mk a b r.imm)

/-- Class 2 without an immediate (MOV): the immediate is dropped as well (30_encoding.md R90). -/
def decodeRR (r : Record) (mk : RegIdx → RegIdx → Instr) : Except DecodeFault Instr :=
  decodeRRI r fun a b _ => mk a b

/-- Class 3: all three slots are checked, the immediate is dropped (30_encoding.md R87, R90). -/
def decodeRRR (r : Record) (mk : RegIdx → RegIdx → RegIdx → Instr) : Except DecodeFault Instr :=
  match slotReg r.op1, slotReg r.op2, slotReg r.op3 with
  | .error e, _, _ => .error e
  | .ok _, .error e, _ => .error e
  | .ok _, .ok _, .error e => .error e
  | .ok a, .ok b, .ok c => .ok (mk a b c)

/-- The decoder on a record: the opcode first, then the significant slots in order (40_fetch_decode.md R116; the
numbers are 30_encoding.md R86's, log 10). Total: every record has a verdict (40_fetch_decode.md R117). -/
def decodeRecord (r : Record) : Except DecodeFault Instr :=
  match r.opcode.toNat with
  | 1 => .ok (.jmp r.imm)
  | 7 => decodeRR r .mov
  | 8 => decodeRI r .movi
  | 9 => decodeRI r .lda
  | 10 => decodeRI r .str
  | 11 => decodeRI r .ldr
  | 12 => decodeRI r .stb
  | 13 => decodeRI r .ldb
  | 18 => decodeRRR r .add
  | 19 => decodeRRI r .addi
  | 20 => decodeRRR r .sub
  | 21 => decodeRRI r .subi
  | 22 => decodeRRR r .mul
  | 23 => decodeRRI r .muli
  | 24 => decodeRRR r .div
  | 25 => decodeRRR r .sdiv
  | 26 => decodeRRI r .divi
  | 31 => .ok (.trp r.imm)
  | _ => .error .invalidOpcode

/-- Why a byte string does not begin with an instruction. -/
inductive DecodeReject where
  /-- Fewer than eight bytes stand there. -/
  | truncated
  /-- Eight bytes stand there and the decoder refuses them. -/
  | fault (f : DecodeFault)
deriving DecidableEq, Repr

/-- The decoder on a byte string: the instruction at its head and the bytes after it. -/
def decode (bs : List Byte) : Except DecodeReject (Instr × List Byte) :=
  match takeRecord bs with
  | none => .error .truncated
  | some (r, rest) =>
    match decodeRecord r with
    | .error f => .error (.fault f)
    | .ok i => .ok (i, rest)

/-! ## The encoder -/

/-- The byte that names a register in an operand slot (30_encoding.md R83). -/
def regByte (r : RegIdx) : Byte := BitVec.ofNat 8 r.val

/-- The record of an instruction, with zeros in the slots and immediates it does not use (30_encoding.md R84, R86). -/
def encodeRecord : Instr → Record
  | .jmp t => ⟨0x01, 0, 0, 0, t⟩
  | .mov rd rs => ⟨0x07, regByte rd, regByte rs, 0, 0⟩
  | .movi rd imm => ⟨0x08, regByte rd, 0, 0, imm⟩
  | .lda rd a => ⟨0x09, regByte rd, 0, 0, a⟩
  | .str rs a => ⟨0x0A, regByte rs, 0, 0, a⟩
  | .ldr rd a => ⟨0x0B, regByte rd, 0, 0, a⟩
  | .stb rs a => ⟨0x0C, regByte rs, 0, 0, a⟩
  | .ldb rd a => ⟨0x0D, regByte rd, 0, 0, a⟩
  | .add rd r1 r2 => ⟨0x12, regByte rd, regByte r1, regByte r2, 0⟩
  | .addi rd rs imm => ⟨0x13, regByte rd, regByte rs, 0, imm⟩
  | .sub rd r1 r2 => ⟨0x14, regByte rd, regByte r1, regByte r2, 0⟩
  | .subi rd rs imm => ⟨0x15, regByte rd, regByte rs, 0, imm⟩
  | .mul rd r1 r2 => ⟨0x16, regByte rd, regByte r1, regByte r2, 0⟩
  | .muli rd rs imm => ⟨0x17, regByte rd, regByte rs, 0, imm⟩
  | .div rd r1 r2 => ⟨0x18, regByte rd, regByte r1, regByte r2, 0⟩
  | .sdiv rd r1 r2 => ⟨0x19, regByte rd, regByte r1, regByte r2, 0⟩
  | .divi rd rs imm => ⟨0x1A, regByte rd, regByte rs, 0, imm⟩
  | .trp c => ⟨0x1F, 0, 0, 0, c⟩

/-- The eight bytes of an instruction in address order. -/
def encode (i : Instr) : List Byte := (encodeRecord i).bytes

/-- What the decoder reads from an instruction given as one number over its bytes, the first byte lowest
(30_encoding.md R81's word view; bits from `nbits` up are 0). -/
def decodeTableWord (nbits w : Nat) : Option Instr :=
  match decode (leBytes 8 (w % 2 ^ nbits)) with
  | .ok (i, _) => some i
  | .error _ => none

end Sys2Proof
end

