-- ==== Sys2Proof/Config.lean ====
section
/-! DEFINITION. What one CORE's configuration fixes, and the values the spec leaves open (00_scope.md R7, R8). The free values have no body, so nothing can be proved about which value they take. -/

namespace Sys2Proof.Config

/-- The default of the parameter MEM_SIZE, 2^17 bytes (00_scope.md R7). The value in force is `State.memSize`
(log 1, DESIGN CHOICE). -/
def defaultMemSize : Word := 131072#32

/-- TRP4_EOF_VALUE, one value for each draw: what TRP 4 writes to R3 at the end of input (45_trap.md R218,
93_implementation_defined.md I6). A free value (log 8). -/
opaque trp4EofValue : Nat → Word

/-- PARSE_INT on the lines that 45_trap.md R215 (c) leaves open: either outcome, and any value. A free value
(log 7). -/
opaque parseIntOpen : List Byte → Option Int

/-- The six outcomes that have an exit status of their own (60_exceptions.md R250). -/
inductive ExitOutcome where
  | missingProgramArgument
  | imageTooLarge
  | unparsableMemorySize
  | unparsableInteger
  | fault
  | success
deriving DecidableEq, Repr

/-- The open host parameters of 00_scope.md R8 that belong to the report at the end of a run: FAULT_MESSAGE and
EXIT_STATUS, with the host's success value (log 9). An argument of the observation; it stands in no state. -/
structure HostReport where
  faultMessage : Word → List Byte
  exitStatus : ExitOutcome → Int
  successValue : Int

/-- What 60_exceptions.md R250 says of EXIT_STATUS: injective, the fault status non-zero, the success status the
host's success value. -/
def HostReport.Lawful (h : HostReport) : Prop :=
  Function.Injective h.exitStatus ∧ h.exitStatus .fault ≠ 0 ∧ h.exitStatus .success = h.successValue

end Sys2Proof.Config
end

