-- ==== Sys2Proof/Machine/State.lean ====
section
/-! DEFINITION. The machine state as plain data (10_state.md R40), its environment beside it, the reasons a step can stop, and the state after reset (10_state.md R39). -/

namespace Sys2Proof.Machine

/-- The causes of a fault (60_exceptions.md R241). A fault of the CORE is no stop of the model: the instruction
enters FAULTED, which is a next state (R244; log 3). -/
inductive FaultKind where
  | fetchOutOfBounds
  | invalidOpcode
  | invalidOperand
  | jumpOutOfBounds
  | memOutOfBounds
  | divideByZero
  | invalidTrapCode
deriving DecidableEq, Repr

/-- The control_fsm's state register (10_state.md R34). -/
inductive Fsm where
  | running
  | faulted
  | terminated
  | aborted
deriving DecidableEq, Repr

/-- The host input stream as the CORE meets it (45_trap.md R220): the bytes supplied and not yet read, whether the
host has signalled the end of input, and the bytes read so far (60_exceptions.md R259). The spec's oracle, held as
data (log 4). R40 has the oracle record the input consumed. -/
structure HostInput where
  pending : List Byte
  ended : Bool
  consumed : List Byte
deriving DecidableEq, Repr

/-- Memory as (address, byte) pairs: addresses strictly rising, no listed byte 0, an unlisted address reading 0,
which is its reset value (70_reset_and_hazards.md R270). -/
abbrev Memory := List Host.Cell

/-- The canonical form of a memory: equal memories are equal lists. -/
abbrev Memory.wf (m : Memory) : Prop :=
  m.Pairwise (fun c d => c.1 < d.1) ∧ ∀ c ∈ m, c.2 ≠ 0

/-- The machine state, exactly the nine components of 10_state.md R40; memory is a list of cells, which is plain
data. -/
structure CoreState where
  regs : Vector Word 22
  mem : Memory
  ir : Record
  term : Bool
  fsm : Fsm
  startPc : Word
  faultAddr : Word
  faultKind : Option FaultKind
  out : List Byte
deriving DecidableEq, Repr

/-- What the spec hands the CORE's step from outside and R40 keeps out of the machine state: the argument MEM_SIZE
(00_scope.md R7; log 1), the host oracle, which records the input consumed (45_trap.md R220; log 4), and the count of
TRP4_EOF_VALUE's draws (45_trap.md R218; log 8). -/
structure Environment where
  memSize : Word
  input : HostInput
  draws : Nat
deriving DecidableEq, Repr

/-- What a step of the model maps: the machine state and, beside it, its environment. The host's interface gives a
step this one argument (log 16). -/
structure State extends CoreState, Environment
deriving DecidableEq, Repr

/-- The stops of the model: states in which the spec enables no step. -/
inductive Fault where
  /-- Raised by `step` in FAULTED, TERMINATED or ABORTED: "In a terminal state no step is enabled"
  (60_exceptions.md R248). Safe. -/
  | halted
  /-- Raised by TRP 2 and TRP 4 while the host has supplied neither the line or byte asked for nor the end of
  input: "While held, the CORE has no enabled step" (45_trap.md R222). The step writes nothing; it runs once the
  host has supplied input (log 5). Safe. -/
  | inputHold
deriving DecidableEq, Repr

/-- What the model does not represent. -/
inductive Refusal where
  /-- Raised by `exec` for an instruction without a meaning; no arm does so. Safe. -/
  | notModelled (mnemonic : String)
  /-- Raised by `launch` for an image or a memory shorter than 4 bytes: "A launch that breaks (c) is refused by the
  model" (70_reset_and_hazards.md R272). Safe. -/
  | launchWithoutPcWord
deriving DecidableEq, Repr

/-- The state right after reset (10_state.md R39) of a CORE with the default MEM_SIZE whose image holds only zeros,
so that memory lists nothing and the initial PC word is 0 (log 2). -/
def State.reset : State where
  regs := Vector.replicate 22 0
  mem := []
  ir := ⟨0, 0, 0, 0, 0⟩
  term := false
  fsm := .running
  startPc := 0
  faultAddr := 0
  faultKind := none
  out := []
  memSize := Config.defaultMemSize
  input := ⟨[], false, []⟩
  draws := 0

end Sys2Proof.Machine
end

