-- ==== Sys2Proof/Machine/Ops.lean ====
section
/-! DEFINITION. The named operations the meanings share: registers, memory, output, input, entering a terminal state, and fetch. -/

namespace Sys2Proof.Machine

/-- What a meaning answers. -/
abbrev Result := Host.Outcome State Fault Refusal

/-! ## register_file (10_state.md R20 to R26) -/

/-- A read port: `x[r]` (10_state.md R26). -/
def State.reg (s : State) (r : RegIdx) : Word := s.regs[r.val]

/-- The write port: `x[r] <- v`. No cell is hardwired and none aliases another (10_state.md R22). -/
def State.setReg (s : State) (r : RegIdx) (v : Word) : State := { s with regs := s.regs.set r.val v }

/-- The program-counter port reads the storage of cell 16 (10_state.md R26). -/
def State.pc (s : State) : Word := s.reg .pc

/-- The program-counter port writes the storage of cell 16 (10_state.md R26). -/
def State.setPc (s : State) (v : Word) : State := s.setReg .pc v

/-! ## Memory (20_memory.md) -/

/-- The byte at an address; an address not listed reads 0 (70_reset_and_hazards.md R270). -/
def Memory.read : Memory → Nat → Byte
  | [], _ => 0
  | c :: m, k => if c.1 = k then c.2 else Memory.read m k

/-- Write one byte and keep the canonical form: writing 0 removes the entry. -/
def Memory.write : Memory → Nat → Byte → Memory
  | [], k, v => if v = 0 then [] else [(k, v)]
  | c :: m, k, v =>
    if k < c.1 then (if v = 0 then c :: m else (k, v) :: c :: m)
    else if k = c.1 then (if v = 0 then m else (k, v) :: m)
    else c :: Memory.write m k v

/-- The bytes at `a, ..., a+n-1` in address order (20_memory.md R53). -/
def Memory.readBytes (m : Memory) (a : Nat) : Nat → List Byte
  | 0 => []
  | n + 1 => m.read a :: m.readBytes (a + 1) n

/-- Write a byte string from address `a` up, in address order (20_memory.md R53). -/
def Memory.writeBytes (m : Memory) (a : Nat) : List Byte → Memory
  | [] => m
  | b :: bs => (m.write a b).writeBytes (a + 1) bs

/-- An access of `k` bytes at `a` is in bounds: `a + k <= MEM_SIZE`, on mathematical integers (20_memory.md R52;
log 13). -/
def State.inBounds (s : State) (a k : Nat) : Bool := a + k ≤ s.memSize.toNat

/-- The memory read port `mem_rd` (20_memory.md R53). -/
def State.memRd (s : State) (a : Word) (n : Nat) : Option (List Byte) :=
  if s.inBounds a.toNat n then some (s.mem.readBytes a.toNat n) else none

/-- The memory write port `mem_wr` (20_memory.md R53): none, with nothing written, when out of bounds. -/
def State.memWr (s : State) (a : Word) (bs : List Byte) : Option State :=
  if s.inBounds a.toNat bs.length then some { s with mem := s.mem.writeBytes a.toNat bs } else none

/-! ## Host streams (45_trap.md R220, R221) -/

/-- `emit(bytes)` appends to the output stream (45_trap.md R221). -/
def State.emit (s : State) (bs : List Byte) : State := { s with out := s.out ++ bs }

/-- The host supplies input bytes (45_trap.md R220, R224). A move of the host between steps (log 4). -/
def State.supply (s : State) (bs : List Byte) : State :=
  { s with input := { s.input with pending := s.input.pending ++ bs } }

/-- The host signals the end of input (45_trap.md R220, R224). A move of the host between steps (log 4). -/
def State.endInput (s : State) : State := { s with input := { s.input with ended := true } }

/-- The bytes before the first 0x0A, and the bytes after it; none if there is no 0x0A. -/
def splitLine : List Byte → Option (List Byte × List Byte)
  | [] => none
  | b :: bs =>
    if b = 0x0A#8 then some ([], bs)
    else match splitLine bs with
      | none => none
      | some (l, rest) => some (b :: l, rest)

/-- Take the next input line (45_trap.md R216): up to the next 0x0A, which is consumed; at the end of input, the
bytes before it, possibly none. None while neither is there: the hold of R222. -/
def HostInput.takeLine (h : HostInput) : Option (List Byte × HostInput) :=
  match splitLine h.pending with
  | some (line, rest) => some (line, { h with pending := rest, consumed := h.consumed ++ line ++ [0x0A#8] })
  | none =>
    if h.ended then some (h.pending, { h with pending := [], consumed := h.consumed ++ h.pending }) else none

/-- The answer to a request for one character (45_trap.md R218). -/
inductive CharInput where
  | byte (b : Byte) (rest : HostInput)
  | endOfInput
  | notYet
deriving DecidableEq, Repr

/-- Take the next input byte (45_trap.md R218), whitespace and newlines included. -/
def HostInput.takeChar (h : HostInput) : CharInput :=
  match h.pending with
  | b :: bs => .byte b { h with pending := bs, consumed := h.consumed ++ [b] }
  | [] => if h.ended then .endOfInput else .notYet

/-- The input is replaced by what a trap left of it. -/
def State.setInput (s : State) (h : HostInput) : State := { s with input := h }

/-- Draw the next value of TRP4_EOF_VALUE (45_trap.md R218; log 8): the counter moves on, so that each occurrence
draws its own. -/
def State.drawEofValue (s : State) : Word × State :=
  (Config.trp4EofValue s.draws, { s with draws := s.draws + 1 })

/-! ## control_fsm (60_exceptions.md R243 to R248) -/

/-- Entering FAULTED: the one way a fault is taken (60_exceptions.md R244). It saves `start_pc` and the kind and
writes nothing else (R242, R253). There is no return from it (R254). -/
def State.takeFault (s : State) (k : FaultKind) : State :=
  { s with faultAddr := s.startPc, faultKind := some k, fsm := .faulted }

/-- Entering ABORTED, the host abort of TRP 2 (60_exceptions.md R247). -/
def State.hostAbort (s : State) : State := { s with fsm := .aborted }

/-- `start_pc <- pc` at the start of a cycle (60_exceptions.md R243). -/
def State.latchStart (s : State) : State := { s with startPc := s.pc }

/-- The kind a decode failure is reported under (40_fetch_decode.md R116). -/
def kindOfDecode : DecodeFault → FaultKind
  | .invalidOpcode => .invalidOpcode
  | .invalidOperand => .invalidOperand

/-! ## fetch_unit (40_fetch_decode.md R110 to R114) -/

/-- The Instruction Register is written whole (10_state.md R32). -/
def State.setIr (s : State) (r : Record) : State := { s with ir := r }

/-- Fetch: the 8 bytes at PC go to the Instruction Register and PC advances by 8; none, with nothing written, when
the record does not fit (40_fetch_decode.md R110 to R112). -/
def State.fetch (s : State) : Option State :=
  match s.memRd s.pc 8 with
  | none => none
  | some bs =>
    match takeRecord bs with
    | none => none
    | some (r, _) => some ((s.setIr r).setPc (s.pc + 8))

/-- Store a record's bytes where the next fetch reads them, if they fit there; the host's way to place an
instruction (log 2). -/
def State.placeAtPc (s : State) (bs : List Byte) : State :=
  match s.memWr s.pc bs with
  | none => s
  | some s' => s'

end Sys2Proof.Machine
end

