-- ==== Sys2Proof/Machine/Operands.lean ====
section
/-! DEFINITION. The operand forms: a register, the raw immediate, and the absolute address of a load or store. There is no other form (30_encoding.md R83). -/

namespace Sys2Proof.Machine

/-- Where an instruction's second source comes from (30_encoding.md R84). -/
inductive Source where
  | reg (r : RegIdx)
  | imm (v : Word)
deriving DecidableEq, Repr

/-- The value of a source: a register cell, or the immediate as it stands, not extended, scaled or shifted
(30_encoding.md R82). -/
def Source.value (s : State) : Source → Word
  | .reg r => s.reg r
  | .imm v => v

/-- The effective address of every load and store is the immediate, an absolute byte address
(43_load_store.md R161; log 10). -/
def effectiveAddress (imm : Word) : Word := imm

end Sys2Proof.Machine
end

