-- ==== Sys2Proof/Machine/Alu.lean ====
section
/-! DEFINITION. alu_32bit and the nine arithmetic instructions (44_arithmetic.md). -/

namespace Sys2Proof.Machine

/-- The unit's operations (44_arithmetic.md R180). -/
inductive AluOp where
  | add
  | sub
  | mul
  | divu
  | divs
deriving DecidableEq, Repr

/-- The unit's function: exact integer arithmetic narrowed to 32 bits, none for `dz` (44_arithmetic.md R181).
Signed values are two's complement
(log 15); -2^31 / -1 wraps to 0x80000000 (log 11). -/
def alu (op : AluOp) (a b : Word) : Option Word :=
  match op with
  | .add => some (BitVec.ofNat 32 (a.toNat + b.toNat))
  | .sub => some (BitVec.ofInt 32 ((a.toNat : Int) - (b.toNat : Int)))
  | .mul => some (BitVec.ofNat 32 (a.toNat * b.toNat))
  | .divu => if b = 0 then none else some (BitVec.ofNat 32 (a.toNat / b.toNat))
  | .divs => if b = 0 then none else some (BitVec.ofInt 32 (a.toInt.tdiv b.toInt))

/-- An arithmetic instruction: both sources are read, then `rd` is written; when the divisor is 0 it faults and
writes nothing (44_arithmetic.md R180; 10_state.md R26). -/
def arith (op : AluOp) (rd rs : RegIdx) (src : Source) (s : State) : Result :=
  match alu op (s.reg rs) (src.value s) with
  | none => .next (s.takeFault .divideByZero)
  | some y => .next (s.setReg rd y)

/-- 44_arithmetic.md R182. -/
def execAdd (rd rs1 rs2 : RegIdx) (s : State) : Result := arith .add rd rs1 (.reg rs2) s
/-- 44_arithmetic.md R183. -/
def execAddi (rd rs : RegIdx) (imm : Word) (s : State) : Result := arith .add rd rs (.imm imm) s
/-- 44_arithmetic.md R184. -/
def execSub (rd rs1 rs2 : RegIdx) (s : State) : Result := arith .sub rd rs1 (.reg rs2) s
/-- 44_arithmetic.md R185. -/
def execSubi (rd rs : RegIdx) (imm : Word) (s : State) : Result := arith .sub rd rs (.imm imm) s
/-- 44_arithmetic.md R186. -/
def execMul (rd rs1 rs2 : RegIdx) (s : State) : Result := arith .mul rd rs1 (.reg rs2) s
/-- 44_arithmetic.md R187. -/
def execMuli (rd rs : RegIdx) (imm : Word) (s : State) : Result := arith .mul rd rs (.imm imm) s
/-- 44_arithmetic.md R188. -/
def execDiv (rd rs1 rs2 : RegIdx) (s : State) : Result := arith .divu rd rs1 (.reg rs2) s
/-- 44_arithmetic.md R189. -/
def execSdiv (rd rs1 rs2 : RegIdx) (s : State) : Result := arith .divs rd rs1 (.reg rs2) s
/-- 44_arithmetic.md R190. -/
def execDivi (rd rs : RegIdx) (imm : Word) (s : State) : Result := arith .divu rd rs (.imm imm) s

end Sys2Proof.Machine
end

