-- ==== Sys2Proof/Machine/Jump.lean ====
section
/-! DEFINITION. Control transfer: JMP (41_jump.md). -/

namespace Sys2Proof.Machine

/-- 41_jump.md R140: the target is checked against the same bound as fetch, then written to PC. -/
def execJmp (target : Word) (s : State) : Result :=
  if s.inBounds target.toNat 8 then .next (s.setPc target) else .next (s.takeFault .jumpOutOfBounds)

end Sys2Proof.Machine
end

