-- ==== Sys2Proof/Machine/LoadStore.lean ====
section
/-! DEFINITION. load_store_unit and its five instructions (43_load_store.md). -/

namespace Sys2Proof.Machine

/-- A load of `n` bytes, zero-extended to 32 bits (43_load_store.md R160, LD32 and LD8U): little-endian, and
MemOutOfBounds with no register written when out of bounds (R167). -/
def load (n : Nat) (rd : RegIdx) (imm : Word) (s : State) : Result :=
  match s.memRd (effectiveAddress imm) n with
  | none => .next (s.takeFault .memOutOfBounds)
  | some bs => .next (s.setReg rd (BitVec.ofNat 32 (leNat bs)))

/-- A store of the low `n` bytes of a register (43_load_store.md R160, ST32 and ST8): little-endian, and
MemOutOfBounds with no byte written when out of bounds (R167). -/
def store (n : Nat) (rs : RegIdx) (imm : Word) (s : State) : Result :=
  match s.memWr (effectiveAddress imm) (leBytes n (s.reg rs).toNat) with
  | none => .next (s.takeFault .memOutOfBounds)
  | some s' => .next s'

/-- 43_load_store.md R162: a 32-bit load, not a move of the address (90_conflicts.md C6). -/
def execLda (rd : RegIdx) (addr : Word) (s : State) : Result := load 4 rd addr s
/-- 43_load_store.md R163. -/
def execStr (rs : RegIdx) (addr : Word) (s : State) : Result := store 4 rs addr s
/-- 43_load_store.md R164. -/
def execLdr (rd : RegIdx) (addr : Word) (s : State) : Result := load 4 rd addr s
/-- 43_load_store.md R165. -/
def execStb (rs : RegIdx) (addr : Word) (s : State) : Result := store 1 rs addr s
/-- 43_load_store.md R166. -/
def execLdb (rd : RegIdx) (addr : Word) (s : State) : Result := load 1 rd addr s

end Sys2Proof.Machine
end

