-- ==== Sys2Proof/Machine/Move.lean ====
section
/-! DEFINITION. The moves MOV and MOVI (42_move.md). -/

namespace Sys2Proof.Machine

/-- 42_move.md R150. -/
def execMov (rd rs : RegIdx) (s : State) : Result := .next (s.setReg rd (s.reg rs))

/-- 42_move.md R151. -/
def execMovi (rd : RegIdx) (imm : Word) (s : State) : Result := .next (s.setReg rd imm)

end Sys2Proof.Machine
end

