-- ==== Sys2Proof/Machine/Flags.lean ====
section
/-! DEFINITION. The one flag of the machine, the termination signal (10_state.md R33). There are no condition codes or status flags (10_state.md R38), so no instruction computes one. -/

namespace Sys2Proof.Machine

/-- TRP 0 sets the termination signal; nothing clears it (10_state.md R33). -/
def State.raiseTerm (s : State) : State := { s with term := true }

/-- Step 4 of the cycle, after an execute that succeeded: "If the termination signal is set → `TERMINATED`"
(60_exceptions.md R243, R246). A cycle that left RUNNING before is not looked at again. -/
def State.checkTerm (s : State) : State :=
  match s.fsm with
  | .running => if s.term then { s with fsm := .terminated } else s
  | .faulted | .terminated | .aborted => s

end Sys2Proof.Machine
end

