-- ==== Sys2Proof/Machine/Text.lean ====
section
/-! DEFINITION. The texts the traps emit and parse, as ASCII bytes (45_trap.md R214, R215, R219; log 12). -/

namespace Sys2Proof.Machine

/-- The ASCII digit of a value below 10. -/
def digitByte (d : Nat) : Byte := BitVec.ofNat 8 (0x30 + d)

/-- The decimal digits of a number, most significant first, no leading zeros; `fuel` bounds the number of further
digits. -/
def decimalDigits : Nat → Nat → List Byte
  | 0, n => [digitByte (n % 10)]
  | fuel + 1, n => if n < 10 then [digitByte n] else decimalDigits fuel (n / 10) ++ [digitByte (n % 10)]

/-- The unsigned decimal numeral of a number below 10^10, which every 32-bit value is (45_trap.md R219). -/
def udecimal (n : Nat) : List Byte := decimalDigits 9 n

/-- The signed decimal numeral: a leading `-` iff negative, no `+`, no padding (45_trap.md R214). -/
def sdecimal (v : Int) : List Byte :=
  if v < 0 then 0x2D :: udecimal v.natAbs else udecimal v.natAbs

/-- The byte is one of the digits 0x30 to 0x39. -/
def isDigit (b : Byte) : Bool := 0x30 ≤ b.toNat && b.toNat ≤ 0x39

/-- The value of a string of digits, most significant first. -/
def digitsValue (bs : List Byte) : Nat := bs.foldl (fun n b => 10 * n + (b.toNat - 0x30)) 0

/-- One or more digits and nothing else: their value. -/
def unsignedNumeral (bs : List Byte) : Option Nat :=
  if bs ≠ [] ∧ bs.all isDigit then some (digitsValue bs) else none

/-- The shape of 45_trap.md R215 (a): an optional `-`, then one or more digits, and nothing else. -/
def signedNumeral : List Byte → Option Int
  | [] => none
  | b :: bs =>
    if b = 0x2D then (unsignedNumeral bs).map fun n => -(n : Int)
    else (unsignedNumeral (b :: bs)).map fun n => (n : Int)

/-- PARSE_INT (45_trap.md R215): a numeral in range gives its value (a); a numeral out of range and the empty line
give none (b); every other line is open, a free value of Config (c; log 7). -/
def parseInt (line : List Byte) : Option Int :=
  match signedNumeral line with
  | some v => if -2 ^ 31 ≤ v ∧ v < 2 ^ 31 then some v else none
  | none => if line = [] then none else Config.parseIntOpen line

end Sys2Proof.Machine
end

