-- ==== Sys2Proof/Machine/Trap.lean ====
section
/-! DEFINITION. trap_dispatcher and TRP (45_trap.md). -/

namespace Sys2Proof.Machine

/-- 45_trap.md R213: terminate. -/
def trapTerminate (s : State) : Result := .next s.raiseTerm

/-- 45_trap.md R214: write R3 as a signed decimal numeral. -/
def trapWriteInt (s : State) : Result := .next (s.emit (sdecimal (s.reg .r3).toInt))

/-- 45_trap.md R216: read a line into R3; hold while there is none, abort when it does not parse. -/
def trapReadInt (s : State) : Result :=
  match s.input.takeLine with
  | none => .fault .inputHold
  | some (line, rest) =>
    match parseInt line with
    | some v => .next ((s.setInput rest).setReg .r3 (BitVec.ofInt 32 v))
    | none => .next (s.setInput rest).hostAbort

/-- 45_trap.md R217: write R3's low byte. -/
def trapWriteChar (s : State) : Result := .next (s.emit [(s.reg .r3).setWidth 8])

/-- 45_trap.md R218: read a character into R3, zero-extended; hold while there is none; at the end of input R3
gets a drawn value. -/
def trapReadChar (s : State) : Result :=
  match s.input.takeChar with
  | .notYet => .fault .inputHold
  | .byte b rest => .next ((s.setInput rest).setReg .r3 (b.setWidth 32))
  | .endOfInput => .next (s.drawEofValue.2.setReg .r3 s.drawEofValue.1)

/-- The name of a register cell in the dump, as ASCII bytes (45_trap.md R219; 10_state.md R20; log 12). -/
def regName (r : RegIdx) : List Byte :=
  match r.val with
  | 16 => [0x50, 0x43]
  | 17 => [0x53, 0x4C]
  | 18 => [0x53, 0x42]
  | 19 => [0x53, 0x50]
  | 20 => [0x46, 0x50]
  | 21 => [0x48, 0x50]
  | n => 0x52 :: udecimal n

/-- One line of the dump: name, tab, unsigned decimal value, newline (45_trap.md R219). -/
def dumpLine (s : State) (r : RegIdx) : List Byte :=
  regName r ++ [0x09#8] ++ udecimal (s.reg r).toNat ++ [0x0A#8]

/-- The dump: the 22 cells in index order (45_trap.md R219). -/
def dumpText (s : State) : List Byte := (List.finRange 22).flatMap (dumpLine s)

/-- 45_trap.md R219: register dump. -/
def trapDump (s : State) : Result := .next (s.emit (dumpText s))

/-- 45_trap.md R211, R212: dispatch on the whole immediate; any other code is InvalidTrapCode (R223). -/
def execTrp (code : Word) (s : State) : Result :=
  match code.toNat with
  | 0 => trapTerminate s
  | 1 => trapWriteInt s
  | 2 => trapReadInt s
  | 3 => trapWriteChar s
  | 4 => trapReadChar s
  | 98 => trapDump s
  | _ => .next (s.takeFault .invalidTrapCode)

end Sys2Proof.Machine
end

