-- ==== Sys2Proof/Machine/Dispatch.lean ====
section
/-! DEFINITION. exec: one arm for each constructor of Instr, each one call of the instruction's meaning. -/

namespace Sys2Proof.Machine

def exec (i : Instr) (s : State) : Host.Outcome State Fault Refusal :=
  match i with
  | .jmp target => Sys2Proof.Machine.execJmp target s
  | .mov rd rs => Sys2Proof.Machine.execMov rd rs s
  | .movi rd imm => Sys2Proof.Machine.execMovi rd imm s
  | .lda rd addr => Sys2Proof.Machine.execLda rd addr s
  | .str rs addr => Sys2Proof.Machine.execStr rs addr s
  | .ldr rd addr => Sys2Proof.Machine.execLdr rd addr s
  | .stb rs addr => Sys2Proof.Machine.execStb rs addr s
  | .ldb rd addr => Sys2Proof.Machine.execLdb rd addr s
  | .add rd rs1 rs2 => Sys2Proof.Machine.execAdd rd rs1 rs2 s
  | .addi rd rs imm => Sys2Proof.Machine.execAddi rd rs imm s
  | .sub rd rs1 rs2 => Sys2Proof.Machine.execSub rd rs1 rs2 s
  | .subi rd rs imm => Sys2Proof.Machine.execSubi rd rs imm s
  | .mul rd rs1 rs2 => Sys2Proof.Machine.execMul rd rs1 rs2 s
  | .muli rd rs imm => Sys2Proof.Machine.execMuli rd rs imm s
  | .div rd rs1 rs2 => Sys2Proof.Machine.execDiv rd rs1 rs2 s
  | .sdiv rd rs1 rs2 => Sys2Proof.Machine.execSdiv rd rs1 rs2 s
  | .divi rd rs imm => Sys2Proof.Machine.execDivi rd rs imm s
  | .trp code => Sys2Proof.Machine.execTrp code s

end Sys2Proof.Machine
end

