-- ==== Sys2Proof/Machine/Step.lean ====
section
/-! DEFINITION. The control_fsm's cycle, one step of the model (60_exceptions.md R243), and the host's way to place an instruction where the next step fetches it. -/

namespace Sys2Proof.Machine

/-- Decode and execute of a fetched instruction (60_exceptions.md R243, steps 2 to 5), the termination check last
(log 14). -/
def runFetched (s : State) : Host.Outcome State Fault Refusal :=
  match decodeRecord s.ir with
  | .error f => .next (s.takeFault (kindOfDecode f))
  | .ok i =>
    match exec i s with
    | .next t => .next t.checkTerm
    | .fault r => .fault r
    | .refused r => .refused r

/-- One cycle in RUNNING (60_exceptions.md R243). -/
def cycle (s : State) : Host.Outcome State Fault Refusal :=
  match s.latchStart.fetch with
  | none => .next (s.latchStart.takeFault .fetchOutOfBounds)
  | some t => runFetched t

/-- One step: a cycle in RUNNING, and in a terminal state the stop `halted`, for no step is enabled there
(60_exceptions.md R248). -/
def step (s : State) : Host.Outcome State Fault Refusal :=
  match s.fsm with
  | .running => cycle s
  | .faulted => .fault .halted
  | .terminated => .fault .halted
  | .aborted => .fault .halted

/-- The state with an instruction's 8 bytes stored at PC (log 2). The instruction is given as one number over its
bytes, the first byte lowest; its bits from `nbits` up are 0. -/
def State.withFetchWord (s : State) (nbits w : Nat) : State :=
  s.placeAtPc (leBytes 8 (w % 2 ^ nbits))

end Sys2Proof.Machine
end

