-- ==== Sys2Proof/Machine/Loader.lean ====
section
/-! DEFINITION. The loader's contract with the CORE: the launch that makes a machine right after reset (70_reset_and_hazards.md R270 to R273). -/

namespace Sys2Proof.Machine

/-- What a launch comes to (70_reset_and_hazards.md R272). -/
inductive LaunchResult where
  /-- The CORE starts in this state. -/
  | ready (s : State)
  /-- An error before reset, with its own exit status; the CORE never runs. -/
  | ended (e : Config.ExitOutcome)
  /-- A launch the model does not represent. -/
  | refused (r : Refusal)
deriving DecidableEq, Repr

/-- The state after step (5) of the reset sequence (70_reset_and_hazards.md R273; 10_state.md R39): everything
zeroed, the image copied to offset 0 (R270), PC from bytes 0 to 3, little-endian (R271; log 13). -/
def launchedState (memSize : Word) (image : List Byte) : State :=
  let loaded : State := { State.reset with memSize := memSize, mem := Memory.writeBytes [] 0 image }
  loaded.setPc (BitVec.ofNat 32 (leNat (loaded.mem.readBytes 0 4)))

/-- A launch with the memory-size argument `memSize` and the program image `image` (none: no program argument was
given). The order of the checks is log 6. -/
def launch (memSize : Nat) (image : Option (List Byte)) : LaunchResult :=
  if 2 ^ 32 ≤ memSize then .ended .unparsableMemorySize
  else match image with
    | none => .ended .missingProgramArgument
    | some bytes =>
      if memSize < 4 ∨ bytes.length < 4 then .refused .launchWithoutPcWord
      else if memSize < bytes.length then .ended .imageTooLarge
      else .ready (launchedState (BitVec.ofNat 32 memSize) bytes)

end Sys2Proof.Machine
end

