-- ==== Sys2Proof/Safety.lean ====
section
/-! DEFINITION. What claims say of whole runs: the observation at the end of a run (60_exceptions.md R259) and the invariant every step keeps. -/

namespace Sys2Proof.Machine

/-- The outcome of an ended run (60_exceptions.md R259). The fault kind is no part of it (10_state.md R36). -/
inductive RunOutcome where
  | terminated
  | faulted (faultAddr : Word)
  | aborted
deriving DecidableEq, Repr

/-- The outcome, in a terminal state (60_exceptions.md R259). -/
def State.outcome (s : State) : Option RunOutcome :=
  match s.fsm with
  | .running => none
  | .faulted => some (.faulted s.faultAddr)
  | .terminated => some .terminated
  | .aborted => some .aborted

/-- What the host may receive of the output: all of it after TERMINATED and FAULTED, some prefix after ABORTED
(45_trap.md R221; 60_exceptions.md R247; log 9). -/
def State.mayDeliver (s : State) (received : List Byte) : Prop :=
  match s.fsm with
  | .running => False
  | .faulted => received = s.out
  | .terminated => received = s.out
  | .aborted => received <+: s.out

/-- The report after the output: the fault message after FAULTED, nothing otherwise (60_exceptions.md R249). -/
def State.report (s : State) (h : Config.HostReport) : List Byte :=
  match s.fsm with
  | .faulted => h.faultMessage s.faultAddr
  | .running | .terminated | .aborted => []

/-- The exit status of an ended run (60_exceptions.md R250; 45_trap.md R224). -/
def State.exitStatus (s : State) (h : Config.HostReport) : Option Int :=
  match s.fsm with
  | .running => none
  | .faulted => some (h.exitStatus .fault)
  | .terminated => some (h.exitStatus .success)
  | .aborted => some (h.exitStatus .unparsableInteger)

/-- The exit status of a launch that ends before reset (60_exceptions.md R250; 70_reset_and_hazards.md R272). -/
def LaunchResult.exitStatus (l : LaunchResult) (h : Config.HostReport) : Option Int :=
  match l with
  | .ready _ => none
  | .ended e => some (h.exitStatus e)
  | .refused _ => none

/-- What is observed of an ended run besides the output the host received: the outcome, the host input consumed, and
the final registers and memory (60_exceptions.md R259). -/
structure EndOfRun where
  outcome : RunOutcome
  consumed : List Byte
  regs : Vector Word 22
  mem : Memory
deriving DecidableEq, Repr

/-- The observation of an ended run; none while it runs or holds (60_exceptions.md R259). `State.mayDeliver` says
which output goes with it. -/
def State.endOfRun (s : State) : Option EndOfRun :=
  match s.outcome with
  | none => none
  | some o => some { outcome := o, consumed := s.input.consumed, regs := s.regs, mem := s.mem }

/-- The memory is in canonical form and lists no address outside the machine (20_memory.md R50). -/
def State.memOk (s : State) : Prop :=
  s.mem.wf ∧ ∀ c ∈ s.mem, c.1 < s.memSize.toNat

/-- What the control state says between cycles: in RUNNING no signal is raised and no fault recorded; in FAULTED
the recorded address is that of the faulting instruction, and PC stands as 60_exceptions.md R245 says; in
TERMINATED and ABORTED PC is past the TRP (R246, R247). -/
def State.controlOk (s : State) : Prop :=
  match s.fsm with
  | .running => s.term = false ∧ s.faultKind = none ∧ s.faultAddr = 0
  | .faulted => s.term = false ∧ s.faultAddr = s.startPc ∧
      (s.faultKind = some .fetchOutOfBounds ∧ s.pc = s.startPc ∨
       (∃ k, s.faultKind = some k ∧ k ≠ .fetchOutOfBounds) ∧ s.pc = s.startPc + 8)
  | .terminated => s.term = true ∧ s.faultKind = none ∧ s.faultAddr = 0 ∧ s.pc = s.startPc + 8
  | .aborted => s.term = false ∧ s.faultKind = none ∧ s.faultAddr = 0 ∧ s.pc = s.startPc + 8

/-- The invariant of the machine between steps. -/
def State.Inv (s : State) : Prop := s.memOk ∧ s.controlOk

/-! ## What an instruction may touch -/

/-- The register an instruction may write in execute: PC for JMP, R3 for TRP 2 and TRP 4, its operand 1 otherwise (10_state.md R24, R25). -/
def writtenReg : Instr → Option RegIdx
  | .jmp _ => some .pc
  | .mov rd _ => some rd
  | .movi rd _ => some rd
  | .lda rd _ => some rd
  | .str _ _ => none
  | .ldr rd _ => some rd
  | .stb _ _ => none
  | .ldb rd _ => some rd
  | .add rd _ _ => some rd
  | .addi rd _ _ => some rd
  | .sub rd _ _ => some rd
  | .subi rd _ _ => some rd
  | .mul rd _ _ => some rd
  | .muli rd _ _ => some rd
  | .div rd _ _ => some rd
  | .sdiv rd _ _ => some rd
  | .divi rd _ _ => some rd
  | .trp code => if code = 2 ∨ code = 4 then some .r3 else none

/-- The address range an instruction may store to: its first address and its length (20_memory.md R51). -/
def storedRange : Instr → Nat × Nat
  | .str _ a => (a.toNat, 4)
  | .stb _ a => (a.toNat, 1)
  | _ => (0, 0)

/-- The instruction is no TRP. -/
def notTrap : Instr → Prop
  | .trp _ => False
  | _ => True

end Sys2Proof.Machine
end

