-- ==== Sys2Proof/Certificates/Slice0/Obligations.lean ====
section
/-! DEFINITION. The statements for the provers, each a def Obligations.<Name> : Prop, and the words they are written in. -/

namespace Sys2Proof.Claims

open Sys2Proof.Machine

/-! ## The words the statements use -/

/-- The byte of memory at an address. -/
def byteAt (s : State) (a : Nat) : Byte := s.mem.read a

/-- The little-endian word at an address: the byte at the lowest address is the least significant. -/
def wordAt (s : State) (a : Nat) : Word :=
  byteAt s (a + 3) ++ byteAt s (a + 2) ++ byteAt s (a + 1) ++ byteAt s a

/-- The record at PC, field by field. -/
def recordAt (s : State) : Record :=
  ⟨byteAt s s.pc.toNat, byteAt s (s.pc.toNat + 1), byteAt s (s.pc.toNat + 2), byteAt s (s.pc.toNat + 3),
    wordAt s (s.pc.toNat + 4)⟩

/-- The state decode and execute see in a cycle that begins in `s`: start_pc latched, the IR filled, PC advanced. -/
def afterFetch (s : State) : State :=
  { s with regs := s.regs.set 16 (s.pc + 8), ir := recordAt s, startPc := s.pc }

/-- The machine runs and the record at PC fits in memory. -/
def CanFetch (s : State) : Prop := s.fsm = .running ∧ s.pc.toNat + 8 ≤ s.memSize.toNat

/-- The machine runs and the record at PC decodes to `i`. -/
def Fetches (s : State) (i : Instr) : Prop := CanFetch s ∧ decodeRecord (recordAt s) = .ok i

/-- From `s` to `t` the register `rd` gets `v`, and nothing else changes: no other register, no byte of memory, no
other field. -/
def WritesReg (s t : State) (rd : RegIdx) (v : Word) : Prop :=
  t.reg rd = v ∧ (∀ r, r ≠ rd → t.reg r = s.reg r) ∧ t = { s with regs := t.regs }

/-- The FAULTED state that a fault of kind `k` leads to from `s`: three control fields change and nothing else. -/
def faulted (s : State) (k : FaultKind) : State :=
  { s with faultAddr := s.startPc, faultKind := some k, fsm := .faulted }

/-- The meaning of a register write that cannot fault. -/
def Answers (i : Instr) (s : State) (rd : RegIdx) (v : Word) : Prop :=
  ∃ t, exec i s = .next t ∧ WritesReg s t rd v

/-- From `s` to `t` the `n` bytes of memory from `a` up become the low `n` bytes of `v`, least significant first,
and nothing else changes. -/
def WritesMem (s t : State) (a n : Nat) (v : Word) : Prop :=
  (∀ k, k < n → byteAt t (a + k) = (v >>> (8 * k)).setWidth 8) ∧
  (∀ b, b < a ∨ a + n ≤ b → byteAt t b = byteAt s b) ∧ t = { s with mem := t.mem }

/-- The text is the decimal numeral of `n`: digits, at least one, no leading zero but in "0", of value `n`. -/
def IsNumeral (text : List Byte) (n : Nat) : Prop :=
  text ≠ [] ∧ (∀ b ∈ text, 0x30 ≤ b.toNat ∧ b.toNat ≤ 0x39) ∧ (2 ≤ text.length → text.head? ≠ some 0x30) ∧
  text.foldl (fun v b => 10 * v + (b.toNat - 0x30)) 0 = n

/-- The text is the decimal numeral of `v`, with a leading `-` exactly when `v` is negative. -/
def IsSignedNumeral (text : List Byte) (v : Int) : Prop :=
  (v < 0 → ∃ ds, text = 0x2D :: ds ∧ IsNumeral ds v.natAbs) ∧ (0 ≤ v → IsNumeral text v.natAbs)

/-- The 18 legal opcode bytes. -/
def legalOpcodes : List Nat := [1, 7, 8, 9, 10, 11, 12, 13, 18, 19, 20, 21, 22, 23, 24, 25, 26, 31]

/-- The opcode bytes whose operand 1 is significant. -/
def checksOp1 : List Nat := [7, 8, 9, 10, 11, 12, 13, 18, 19, 20, 21, 22, 23, 24, 25, 26]

/-- The opcode bytes whose operand 2 is significant. -/
def checksOp2 : List Nat := [7, 18, 19, 20, 21, 22, 23, 24, 25, 26]

/-- The opcode bytes whose operand 3 is significant. -/
def checksOp3 : List Nat := [18, 20, 22, 24, 25]

/-- The opcode bytes of the instructions that do not use their immediate. -/
def ignoresImm : List Nat := [7, 18, 20, 22, 24, 25]

/-- Some significant slot of the record holds a byte above 21. -/
def BadSlot (r : Record) : Prop :=
  (r.opcode.toNat ∈ checksOp1 ∧ 21 < r.op1.toNat) ∨ (r.opcode.toNat ∈ checksOp2 ∧ 21 < r.op2.toNat) ∨
  (r.opcode.toNat ∈ checksOp3 ∧ 21 < r.op3.toNat)

/-- The fault an instruction raises in execute, if it raises one. -/
def executeFault (i : Instr) (s : State) : Option FaultKind :=
  match i with
  | .jmp target => if target.toNat + 8 ≤ s.memSize.toNat then none else some .jumpOutOfBounds
  | .mov _ _ => none
  | .movi _ _ => none
  | .lda _ a => if a.toNat + 4 ≤ s.memSize.toNat then none else some .memOutOfBounds
  | .str _ a => if a.toNat + 4 ≤ s.memSize.toNat then none else some .memOutOfBounds
  | .ldr _ a => if a.toNat + 4 ≤ s.memSize.toNat then none else some .memOutOfBounds
  | .stb _ a => if a.toNat + 1 ≤ s.memSize.toNat then none else some .memOutOfBounds
  | .ldb _ a => if a.toNat + 1 ≤ s.memSize.toNat then none else some .memOutOfBounds
  | .add _ _ _ => none
  | .addi _ _ _ => none
  | .sub _ _ _ => none
  | .subi _ _ _ => none
  | .mul _ _ _ => none
  | .muli _ _ _ => none
  | .div _ _ rs2 => if s.reg rs2 = 0 then some .divideByZero else none
  | .sdiv _ _ rs2 => if s.reg rs2 = 0 then some .divideByZero else none
  | .divi _ _ imm => if imm = 0 then some .divideByZero else none
  | .trp code => if code ∈ [0, 1, 2, 3, 4, 98] then none else some .invalidTrapCode

/-- The registers an instruction reads or writes in execute. -/
def namedRegs : Instr → List RegIdx
  | .jmp _ => [.pc]
  | .mov rd rs => [rd, rs]
  | .movi rd _ => [rd]
  | .lda rd _ => [rd]
  | .str rs _ => [rs]
  | .ldr rd _ => [rd]
  | .stb rs _ => [rs]
  | .ldb rd _ => [rd]
  | .add rd a b => [rd, a, b]
  | .addi rd a _ => [rd, a]
  | .sub rd a b => [rd, a, b]
  | .subi rd a _ => [rd, a]
  | .mul rd a b => [rd, a, b]
  | .muli rd a _ => [rd, a]
  | .div rd a b => [rd, a, b]
  | .sdiv rd a b => [rd, a, b]
  | .divi rd a _ => [rd, a]
  | .trp code => if code = 98 then List.finRange 22 else if code ∈ [1, 2, 3, 4] then [.r3] else []

/-- What an instruction reads from a register in the cycle that begins in `s`: cell 16 holds the address of the next
record, every other cell what it held (70_reset_and_hazards.md R276). -/
def cycleReg (s : State) (r : RegIdx) : Word := if r = .pc then s.pc + 8 else s.reg r

/-- The register that MOV, MOVI, a load or an arithmetic instruction writes in the cycle that begins in `s`, and its
new value; none for the other instructions and where the instruction faults. -/
def registerResult (s : State) (i : Instr) : Option (RegIdx × Word) :=
  match i with
  | .jmp _ => none
  | .mov rd rs => some (rd, cycleReg s rs)
  | .movi rd imm => some (rd, imm)
  | .lda rd a => if a.toNat + 4 ≤ s.memSize.toNat then some (rd, wordAt s a.toNat) else none
  | .str _ _ => none
  | .ldr rd a => if a.toNat + 4 ≤ s.memSize.toNat then some (rd, wordAt s a.toNat) else none
  | .stb _ _ => none
  | .ldb rd a => if a.toNat + 1 ≤ s.memSize.toNat then some (rd, (byteAt s a.toNat).setWidth 32) else none
  | .add rd rs1 rs2 => some (rd, cycleReg s rs1 + cycleReg s rs2)
  | .addi rd rs imm => some (rd, cycleReg s rs + imm)
  | .sub rd rs1 rs2 => some (rd, cycleReg s rs1 - cycleReg s rs2)
  | .subi rd rs imm => some (rd, cycleReg s rs - imm)
  | .mul rd rs1 rs2 => some (rd, cycleReg s rs1 * cycleReg s rs2)
  | .muli rd rs imm => some (rd, cycleReg s rs * imm)
  | .div rd rs1 rs2 => if cycleReg s rs2 = 0 then none else some (rd, cycleReg s rs1 / cycleReg s rs2)
  | .sdiv rd rs1 rs2 => if cycleReg s rs2 = 0 then none else some (rd, (cycleReg s rs1).sdiv (cycleReg s rs2))
  | .divi rd rs imm => if imm = 0 then none else some (rd, cycleReg s rs / imm)
  | .trp _ => none

/-- The byte at address `b` after the low `n` bytes of `v` are stored from address `a` up. -/
def byteAfterStore (s : State) (a n : Nat) (v : Word) (b : Nat) : Byte :=
  if a ≤ b ∧ b < a + n then (v >>> (8 * (b - a))).setWidth 8 else byteAt s b

/-- The launch ends before reset with the exit status of `e`, which is neither the fault's nor the success value. -/
def EndsBeforeReset (n : Nat) (image : Option (List Byte)) (e : Config.ExitOutcome) : Prop :=
  launch n image = .ended e ∧
  ∀ h : Config.HostReport, h.Lawful → (launch n image).exitStatus h = some (h.exitStatus e) ∧
    h.exitStatus e ≠ h.exitStatus .fault ∧ h.exitStatus e ≠ h.successValue

/-- The names of the 22 cells in the dump, as ASCII bytes: R0 to R15, PC, SL, SB, SP, FP, HP. -/
def dumpNames : List (List Byte) :=
  [[0x52, 0x30], [0x52, 0x31], [0x52, 0x32], [0x52, 0x33], [0x52, 0x34], [0x52, 0x35], [0x52, 0x36], [0x52, 0x37],
   [0x52, 0x38], [0x52, 0x39], [0x52, 0x31, 0x30], [0x52, 0x31, 0x31], [0x52, 0x31, 0x32], [0x52, 0x31, 0x33],
   [0x52, 0x31, 0x34], [0x52, 0x31, 0x35]] ++
  [[0x50, 0x43], [0x53, 0x4C], [0x53, 0x42], [0x53, 0x50], [0x46, 0x50], [0x48, 0x50]]

end Sys2Proof.Claims

open Sys2Proof Sys2Proof.Machine Sys2Proof.Claims

/-! ## Encoding and decoding -/

/-- Decoding the eight bytes of any instruction, followed by any bytes, gives that instruction and those bytes:
no bit of an operand is lost. The opcode numbers and slots are the spec's decisions D1, D3, D4 (log 10). -/
def Obligations.DecodeUndoesEncode : Prop :=
  ∀ (i : Instr) (rest : List Byte), decode (encode i ++ rest) = .ok (i, rest)

/-- A record that decodes re-encodes to itself with its don't-care slots and its unused immediate cleared: decode
drops nothing else. The slot classes are the spec's decision D4 (log 10). -/
def Obligations.DecodedRecordReencodes : Prop :=
  ∀ (r : Record) (i : Instr), decodeRecord r = .ok i →
    encodeRecord i =
      { opcode := r.opcode
        op1 := if r.opcode.toNat ∈ checksOp1 then r.op1 else 0
        op2 := if r.opcode.toNat ∈ checksOp2 then r.op2 else 0
        op3 := if r.opcode.toNat ∈ checksOp3 then r.op3 else 0
        imm := if r.opcode.toNat ∈ ignoresImm then 0 else r.imm }

/-- For each of the 18 rows of 30_encoding.md R86, a record the spec writes out byte by byte in 95_test_vectors.md or
40_fetch_decode.md decodes to the instruction the spec says it is (a sanity statement). Six of the 21 records have
stray bytes in their don't-care slots. The opcode numbers, the index of HP, the slots and the classes
that these records show are the spec's decisions D1 to D4 (log 10). -/
def Obligations.SpecRecordsDecode : Prop :=
  decode [0x01, 0x00, 0x00, 0x00, 0xF8, 0xFF, 0x01, 0x00] = .ok (.jmp 131064, []) ∧
  decode [0x01, 0xFF, 0xFF, 0xFF, 0x10, 0x00, 0x00, 0x00] = .ok (.jmp 16, []) ∧
  decode [0x07, 0x01, 0x02, 0xC8, 0x00, 0x00, 0x00, 0x00] = .ok (.mov 1 2, []) ∧
  decode [0x08, 0x00, 0x00, 0x00, 0x05, 0x00, 0x00, 0x00] = .ok (.movi 0 5, []) ∧
  decode [0x08, 0x15, 0xFF, 0xFF, 0x05, 0x00, 0x00, 0x00] = .ok (.movi .hp 5, []) ∧
  decode [0x09, 0x06, 0x00, 0x00, 0x00, 0x02, 0x00, 0x00] = .ok (.lda 6 0x200, []) ∧
  decode [0x0A, 0x04, 0x00, 0x00, 0x00, 0x02, 0x00, 0x00] = .ok (.str 4 0x200, []) ∧
  decode [0x0B, 0x00, 0x10, 0xFF, 0x00, 0x01, 0x00, 0x00] = .ok (.ldr 0 256, []) ∧
  decode [0x0C, 0x04, 0x00, 0x00, 0x00, 0x03, 0x00, 0x00] = .ok (.stb 4 0x300, []) ∧
  decode [0x0D, 0x07, 0x00, 0x00, 0x00, 0x03, 0x00, 0x00] = .ok (.ldb 7 0x300, []) ∧
  decode [0x12, 0x02, 0x01, 0x00, 0x00, 0x00, 0x00, 0x00] = .ok (.add 2 1 0, []) ∧
  decode [0x13, 0x15, 0x15, 0xFF, 0x01, 0x00, 0x00, 0x00] = .ok (.addi .hp .hp 1, []) ∧
  decode [0x14, 0x02, 0x01, 0x00, 0x00, 0x00, 0x00, 0x00] = .ok (.sub 2 1 0, []) ∧
  decode [0x15, 0x06, 0x00, 0x00, 0xAD, 0x01, 0x00, 0x00] = .ok (.subi 6 0 429, []) ∧
  decode [0x16, 0x02, 0x01, 0x00, 0x00, 0x00, 0x00, 0x00] = .ok (.mul 2 1 0, []) ∧
  decode [0x17, 0x07, 0x00, 0x00, 0x03, 0x00, 0x00, 0x00] = .ok (.muli 7 0 3, []) ∧
  decode [0x18, 0x02, 0x01, 0x00, 0x00, 0x00, 0x00, 0x00] = .ok (.div 2 1 0, []) ∧
  decode [0x19, 0x02, 0x01, 0x00, 0x00, 0x00, 0x00, 0x00] = .ok (.sdiv 2 1 0, []) ∧
  decode [0x1A, 0x08, 0x07, 0x00, 0x05, 0x00, 0x00, 0x00] = .ok (.divi 8 7 5, []) ∧
  decode [0x1F, 0x00, 0x00, 0x00, 0x62, 0x00, 0x00, 0x00] = .ok (.trp 98, []) ∧
  decode [0x1F, 0xFF, 0xFF, 0xFF, 0x00, 0x00, 0x00, 0x00] = .ok (.trp 0, [])

/-- The decoder's verdict on every record: an illegal opcode is InvalidOpcode, a legal opcode with a significant
slot above 21 is InvalidOperand, every other record is an instruction. Which slots are significant is the spec's
decision D4 for MOVI and the immediate forms (log 10). -/
def Obligations.DecoderVerdict : Prop :=
  ∀ r : Record,
    (r.opcode.toNat ∉ legalOpcodes → decodeRecord r = .error .invalidOpcode) ∧
    (r.opcode.toNat ∈ legalOpcodes → BadSlot r → decodeRecord r = .error .invalidOperand) ∧
    (r.opcode.toNat ∈ legalOpcodes → ¬ BadSlot r → ∃ i, decodeRecord r = .ok i)

/-- Don't-care slots and unused immediates have no effect: records that agree on the opcode, the significant slots
and the used immediate have the same verdict and, where they decode, the same instruction. -/
def Obligations.DontCareFieldsHaveNoEffect : Prop :=
  ∀ r r' : Record, r'.opcode = r.opcode →
    (r.opcode.toNat ∈ checksOp1 → r'.op1 = r.op1) →
    (r.opcode.toNat ∈ checksOp2 → r'.op2 = r.op2) →
    (r.opcode.toNat ∈ checksOp3 → r'.op3 = r.op3) →
    (r.opcode.toNat ∉ ignoresImm → r'.imm = r.imm) →
    decodeRecord r' = decodeRecord r

/-- 30_encoding.md R91: every opcode byte outside the set faults with InvalidOpcode, at the address of the record. -/
def Obligations.IllegalOpcodeFaults : Prop :=
  ∀ s : State, CanFetch s →
    ((recordAt s).opcode.toNat ∈ [0, 2, 3, 4, 5, 6, 14, 15, 16, 17, 27, 28, 29, 30] ∨ 32 ≤ (recordAt s).opcode.toNat) →
    decodeRecord (recordAt s) = .error .invalidOpcode ∧
    step s = .next (faulted (afterFetch s) .invalidOpcode)

/-- 40_fetch_decode.md R118: a decode failure leaves the state as fetch left it, and the control_fsm enters
FAULTED. -/
def Obligations.DecodeFailureLeavesFetchedState : Prop :=
  ∀ (s : State) (f : DecodeFault), CanFetch s → decodeRecord (recordAt s) = .error f →
    ∃ k, step s = .next (faulted (afterFetch s) k) ∧
      (f = .invalidOpcode → k = .invalidOpcode) ∧ (f = .invalidOperand → k = .invalidOperand)

/-! ## Fetch and the step -/

/-- 40_fetch_decode.md R111, R112: a fetch that fits fills the five IR fields from the eight bytes at PC and
advances PC by 8, writing nothing else; one that does not fit writes nothing and the cycle faults. -/
def Obligations.FetchReadsTheRecord : Prop :=
  (∀ s : State, s.pc.toNat + 8 ≤ s.memSize.toNat →
    ∃ t, s.fetch = some t ∧ t.ir = recordAt s ∧ t.pc = s.pc + 8 ∧ (s.pc + 8).toNat = s.pc.toNat + 8 ∧
      (∀ r, r ≠ RegIdx.pc → t.reg r = s.reg r) ∧ t = { s with regs := t.regs, ir := t.ir }) ∧
  (∀ s : State, s.memSize.toNat < s.pc.toNat + 8 →
    s.fetch = none ∧
    (s.fsm = .running → step s = .next (faulted { s with startPc := s.pc } .fetchOutOfBounds)))

/-- A step runs the decoded instruction: with the record at PC decoding to `i`, the step is `exec i` in the fetched
state, followed by the termination check; a hold is passed on, and nothing is refused (60_exceptions.md section 2). -/
def Obligations.StepRunsDecodedInstruction : Prop :=
  ∀ (s : State) (i : Instr), Fetches s i →
    (∀ t, exec i (afterFetch s) = .next t →
      step s = .next (if t.fsm = .running ∧ t.term = true then { t with fsm := .terminated } else t)) ∧
    (∀ f, exec i (afterFetch s) = .fault f → step s = .fault f) ∧
    (∀ f, exec i (afterFetch s) ≠ .refused f)

/-- The old contents of the IR have no effect on a cycle that fetches. -/
def Obligations.OldIrHasNoEffect : Prop :=
  ∀ (s : State) (r : Record), CanFetch s → step { s with ir := r } = step s

/-- In a terminal state no step is enabled. The model says so with the stop `halted` (log 3; the spec's decision
D22). -/
def Obligations.TerminalStatesHalt : Prop :=
  ∀ s : State, s.fsm ≠ .running → step s = .fault .halted

/-- In RUNNING a step is enabled unless a TRP 2 or TRP 4 holds for input, and it holds exactly when the host has
supplied neither the line or byte nor the end of input. The stop `inputHold` is the model's form of the hold
(log 5). -/
def Obligations.RunningStepsOrHolds : Prop :=
  ∀ s : State, s.fsm = .running →
    ((∃ t, step s = .next t) ∨ step s = .fault .inputHold) ∧
    (step s = .fault .inputHold ↔
      s.input.ended = false ∧
      (Fetches s (.trp 2) ∧ 0x0A#8 ∉ s.input.pending ∨ Fetches s (.trp 4) ∧ s.input.pending = []))

/-- A held machine steps once the host supplies what it waits for: a line or the end of input for TRP 2, a byte or
the end of input for TRP 4. -/
def Obligations.SupplyLiftsTheHold : Prop :=
  ∀ s : State, step s = .fault .inputHold →
    (∃ t, step s.endInput = .next t) ∧
    (∀ bs, 0x0A#8 ∈ bs → ∃ t, step (s.supply bs) = .next t) ∧
    (Fetches s (.trp 4) → ∀ bs, bs ≠ [] → ∃ t, step (s.supply bs) = .next t)

/-! ## Faults, termination and the invariant -/

/-- Which instruction faults in execute, on which operands, with which kind; and that it faults on no others. The
bounds are on mathematical integers, the spec's decision D7 (log 13). -/
def Obligations.ExecuteFaultsExactlyWhen : Prop :=
  ∀ (i : Instr) (s : State), s.fsm = .running →
    (∀ k, executeFault i s = some k → exec i s = .next (faulted s k)) ∧
    (executeFault i s = none → ∀ t, exec i s = .next t → t.fsm ≠ .faulted)

/-- 43_load_store.md R167: an opcode's failure leaves registers and memory exactly as they were. -/
def Obligations.FailureHasNoPartialEffect : Prop :=
  ∀ (i : Instr) (s t : State), s.fsm = .running → exec i s = .next t → t.fsm = .faulted →
    (∀ r, t.reg r = s.reg r) ∧ (∀ a, byteAt t a = byteAt s a) ∧
    t = { s with faultAddr := t.faultAddr, faultKind := t.faultKind, fsm := t.fsm }

/-- A faulting cycle is precise: the fault address is that of the record, PC is there after a fetch fault and 8
further after any other, the IR is unchanged or holds the record, and nothing else changes. The host receives all
the output, then the fault message of that address, and a non-zero exit status that is not the success value. -/
def Obligations.FaultedStateIsPrecise : Prop :=
  ∀ s t : State, s.fsm = .running → step s = .next t → t.fsm = .faulted →
    t.faultAddr = s.pc ∧ t.startPc = s.pc ∧
    (t.faultKind = some .fetchOutOfBounds ∧ s.memSize.toNat < s.pc.toNat + 8 ∧ t.pc = s.pc ∧ t.ir = s.ir ∨
     (∃ k, t.faultKind = some k ∧ k ≠ .fetchOutOfBounds) ∧ s.pc.toNat + 8 ≤ s.memSize.toNat ∧
       t.pc = s.pc + 8 ∧ t.ir = recordAt s) ∧
    (∀ r, r ≠ RegIdx.pc → t.reg r = s.reg r) ∧ t.mem = s.mem ∧ t.term = s.term ∧ t.out = s.out ∧
    t.input = s.input ∧ t.memSize = s.memSize ∧ t.draws = s.draws ∧
    t.outcome = some (.faulted s.pc) ∧ (∀ received, t.mayDeliver received ↔ received = s.out) ∧
    ∀ h : Config.HostReport, t.report h = h.faultMessage s.pc ∧
      (h.Lawful → t.exitStatus h = some (h.exitStatus .fault) ∧ h.exitStatus .fault ≠ 0 ∧
        h.exitStatus .fault ≠ h.successValue)

/-- 60_exceptions.md R246: the machine terminates exactly after a TRP 0, the only instruction that sets the signal; PC
then holds the TRP 0's address plus 8 and nothing else is changed; the run exits with the success status and delivers all its output. -/
def Obligations.TerminatesExactlyAfterTrapZero : Prop :=
  (∀ s : State, Fetches s (.trp 0) →
    ∃ t, step s = .next t ∧ t = { afterFetch s with term := true, fsm := .terminated } ∧
      t.pc = s.pc + 8 ∧ (∀ received, t.mayDeliver received ↔ received = s.out) ∧
      (∀ h : Config.HostReport, h.Lawful → t.exitStatus h = some h.successValue)) ∧
  (∀ s t : State, s.fsm = .running → s.term = false → step s = .next t → t.fsm = .terminated →
    Fetches s (.trp 0)) ∧
  (∀ (i : Instr) (s t : State), exec i s = .next t → s.term = false → t.term = true → i = .trp 0)

/-- 10_state.md R33: the termination signal is running after reset and after every launch; only TRP 0 sets it;
nothing clears it; the control loop looks at it once, after execute returns. -/
def Obligations.TerminationSignalSetOnlyByTrapZero : Prop :=
  State.reset.term = false ∧
  (∀ n image s, launch n image = .ready s → s.term = false) ∧
  (∀ i s t, exec i s = .next t → t.term = (s.term || decide (i = .trp 0))) ∧
  (∀ s t, step s = .next t → s.term = true → t.term = true) ∧
  (∀ s i t, Fetches s i → exec i (afterFetch s) = .next t → t.fsm = .running →
    step s = .next (if t.term = true then { t with fsm := .terminated } else t))

/-- The invariant of Safety.lean, kept by every step: memory canonical and inside MEM_SIZE, and the control
registers as 60_exceptions.md section 2 says they stand in each state of the control loop. -/
def Obligations.StepKeepsInvariant : Prop :=
  ∀ s t : State, s.Inv → step s = .next t → t.Inv

/-- The invariant holds after reset. Reset's image of zeros is the model's choice (log 2). -/
def Obligations.ResetSatisfiesInvariant : Prop := State.reset.Inv

/-- Every launch the model starts satisfies the invariant. -/
def Obligations.LaunchSatisfiesInvariant : Prop :=
  ∀ (n : Nat) (image : Option (List Byte)) (s : State), launch n image = .ready s → s.Inv

/-- A step only adds to the output, takes input from the front in order, and changes neither MEM_SIZE nor the end
of input. -/
def Obligations.StepKeepsHistory : Prop :=
  ∀ s t : State, step s = .next t →
    s.out <+: t.out ∧ t.input.consumed ++ t.input.pending = s.input.consumed ++ s.input.pending ∧
    s.input.consumed <+: t.input.consumed ∧ t.input.ended = s.input.ended ∧ t.memSize = s.memSize

/-- Neither what the host observes of a run nor what a step does depends on the fault kind: with another kind
recorded, a step answers the same state but for that record, or the same stop. -/
def Obligations.FaultKindIsNotObservable : Prop :=
  ∀ (s : State) (k : Option FaultKind) (h : Config.HostReport) (received : List Byte),
    State.endOfRun { s with faultKind := k } = s.endOfRun ∧
    (State.mayDeliver { s with faultKind := k } received ↔ s.mayDeliver received) ∧
    State.report { s with faultKind := k } h = s.report h ∧
    State.exitStatus { s with faultKind := k } h = s.exitStatus h ∧
    (∀ t, step s = .next t → ∃ k', step { s with faultKind := k } = .next { t with faultKind := k' }) ∧
    (∀ f, step s = .fault f → step { s with faultKind := k } = .fault f)

/-- What State holds beside the machine state of 10_state.md R40 acts on the machine only where the spec says: the host
input only through what TRP 2 and TRP 4 ask of it, never through what was consumed before, and the count of draws
only in a TRP 4 at the end of input. Every other cycle leaves that environment as it was. That the environment
stands in State is the model's choice (log 16, with 1, 4 and 8). -/
def Obligations.EnvironmentActsOnlyThroughReads : Prop :=
  ∀ s t : State, step s = .next t →
    t.memSize = s.memSize ∧
    (¬ Fetches s (.trp 2) → ¬ Fetches s (.trp 4) → t.toEnvironment = s.toEnvironment ∧
      ∀ (h : HostInput) (d : Nat), step { s with input := h, draws := d } = .next { t with input := h, draws := d }) ∧
    (∀ consumed : List Byte, ∃ t', step { s with input := { s.input with consumed := consumed } } = .next t' ∧
      t'.toCoreState = t.toCoreState) ∧
    (¬ (Fetches s (.trp 4) ∧ s.input.pending = []) → t.draws = s.draws ∧
      ∀ d : Nat, step { s with draws := d } = .next { t with draws := d })

/-! ## Frames over all instructions -/

/-- The frame of execute, for every instruction: every register but the one it writes (PC for JMP, R3 for TRP 2 and
TRP 4), every byte but those it stores, and the IR, start_pc and MEM_SIZE are unchanged; the termination signal,
the streams and the draws change in TRP alone. -/
def Obligations.ExecuteFrame : Prop :=
  ∀ (i : Instr) (s t : State), s.mem.wf → exec i s = .next t →
    (∀ r, writtenReg i ≠ some r → t.reg r = s.reg r) ∧
    (∀ a, a < (storedRange i).1 ∨ (storedRange i).1 + (storedRange i).2 ≤ a → byteAt t a = byteAt s a) ∧
    t.ir = s.ir ∧ t.startPc = s.startPc ∧ t.memSize = s.memSize ∧
    (notTrap i → t.term = s.term ∧ t.out = s.out ∧ t.input = s.input ∧ t.draws = s.draws)

/-- A register an instruction does not name has no effect on it: changing it before or after comes to the same. -/
def Obligations.UnnamedRegistersHaveNoEffect : Prop :=
  ∀ (i : Instr) (s : State) (q : RegIdx) (v : Word), q ∉ namedRegs i →
    exec i (s.setReg q v) =
      match exec i s with
      | .next t => .next (t.setReg q v)
      | .fault f => .fault f
      | .refused f => .refused f

/-! ## Control transfer and moves -/

/-- JMP writes its target to PC and nothing else when a record fits there, and otherwise faults with nothing
written. The bound is on mathematical integers, the spec's decision D7 (log 13). -/
def Obligations.JmpChecksItsTarget : Prop :=
  ∀ (target : Word) (s : State),
    (target.toNat + 8 ≤ s.memSize.toNat → Answers (.jmp target) s .pc target) ∧
    (s.memSize.toNat < target.toNat + 8 → exec (.jmp target) s = .next (faulted s .jumpOutOfBounds))

/-- MOV copies a register and MOVI writes its immediate; nothing else changes. -/
def Obligations.MovAndMoviWriteOneRegister : Prop :=
  (∀ rd rs s, Answers (.mov rd rs) s rd (s.reg rs)) ∧ (∀ rd imm s, Answers (.movi rd imm) s rd imm)

/-- A write of cell 16 by MOV, MOVI, a load or an arithmetic instruction is an unchecked jump: PC gets the value,
whatever it is, and nothing else of registers and memory changes. Where a record fits there the next fetch reads it;
where none fits the next fetch faults, with that value as the fault address. -/
def Obligations.UncheckedJumpFaultsAtNextFetch : Prop :=
  ∀ (s : State) (i : Instr) (v : Word), Fetches s i → s.term = false → registerResult s i = some (.pc, v) →
    ∃ t, step s = .next t ∧ t.fsm = .running ∧ t.pc = v ∧
      (∀ r, r ≠ RegIdx.pc → t.reg r = s.reg r) ∧ t.mem = s.mem ∧
      (v.toNat + 8 ≤ s.memSize.toNat → ∃ u, t.fetch = some u ∧ u.ir = recordAt t) ∧
      (s.memSize.toNat < v.toNat + 8 →
        ∃ u, step t = .next u ∧ u.fsm = .faulted ∧ u.faultAddr = v ∧ u.faultKind = some .fetchOutOfBounds ∧ u.pc = v)

/-- Every instruction that reads cell 16, in whichever operand, reads the fetch address plus 8: the sources of MOV
and of the arithmetic instructions, the stored register of STR and STB, and the PC line of TRP 98. The format of the
dump is the spec's decision D17 (log 12). -/
def Obligations.PcReadsAsNextAddress : Prop :=
  ∀ s : State, s.term = false →
    cycleReg s .pc = s.pc + 8 ∧
    (∀ (i : Instr) (rd : RegIdx) (v : Word), Fetches s i → registerResult s i = some (rd, v) →
      ∃ t, step s = .next t ∧ t.reg rd = v ∧ (∀ r, r ≠ rd → t.reg r = cycleReg s r)) ∧
    (∀ (rs : RegIdx) (a : Word), s.mem.wf →
      (Fetches s (.str rs a) → a.toNat + 4 ≤ s.memSize.toNat →
        ∃ t, step s = .next t ∧ wordAt t a.toNat = cycleReg s rs) ∧
      (Fetches s (.stb rs a) → a.toNat + 1 ≤ s.memSize.toNat →
        ∃ t, step s = .next t ∧ byteAt t a.toNat = (cycleReg s rs).setWidth 8)) ∧
    (Fetches s (.trp 98) →
      ∃ (t : State) (numerals : RegIdx → List Byte), step s = .next t ∧
        (∀ r, IsNumeral (numerals r) (cycleReg s r).toNat) ∧
        t.out = s.out ++ (List.finRange 22).flatMap fun r =>
          dumpNames[r.val]! ++ [0x09#8] ++ numerals r ++ [0x0A#8])

/-! ## Loads and stores -/

/-- LDA and LDR load the little-endian word at the immediate, at any alignment, when it fits, and otherwise fault
with no register written. -/
def Obligations.LdaAndLdrLoadWord : Prop :=
  ∀ (rd : RegIdx) (a : Word) (s : State),
    (a.toNat + 4 ≤ s.memSize.toNat →
      Answers (.lda rd a) s rd (wordAt s a.toNat) ∧ Answers (.ldr rd a) s rd (wordAt s a.toNat)) ∧
    (s.memSize.toNat < a.toNat + 4 →
      exec (.lda rd a) s = .next (faulted s .memOutOfBounds) ∧
      exec (.ldr rd a) s = .next (faulted s .memOutOfBounds))

/-- LDB loads the zero-extended byte at the immediate when it exists, and otherwise faults. -/
def Obligations.LdbLoadsByte : Prop :=
  ∀ (rd : RegIdx) (a : Word) (s : State),
    (a.toNat + 1 ≤ s.memSize.toNat → Answers (.ldb rd a) s rd ((byteAt s a.toNat).setWidth 32)) ∧
    (s.memSize.toNat < a.toNat + 1 → exec (.ldb rd a) s = .next (faulted s .memOutOfBounds))

/-- STR writes the register's four bytes, least significant first, at the immediate, and STB its low byte; no other
byte and no register changes; out of bounds they fault with no byte written. -/
def Obligations.StrAndStbStore : Prop :=
  ∀ (rs : RegIdx) (a : Word) (s : State), s.mem.wf →
    (a.toNat + 4 ≤ s.memSize.toNat →
      ∃ t, exec (.str rs a) s = .next t ∧ WritesMem s t a.toNat 4 (s.reg rs) ∧ t.mem.wf) ∧
    (s.memSize.toNat < a.toNat + 4 → exec (.str rs a) s = .next (faulted s .memOutOfBounds)) ∧
    (a.toNat + 1 ≤ s.memSize.toNat →
      ∃ t, exec (.stb rs a) s = .next t ∧ WritesMem s t a.toNat 1 (s.reg rs) ∧ t.mem.wf) ∧
    (s.memSize.toNat < a.toNat + 1 → exec (.stb rs a) s = .next (faulted s .memOutOfBounds))

/-- A stored word reads back whole with LDR and LDA, and byte by byte with LDB; a stored byte reads back as the low
byte, and replaces one byte of the word it lies in. -/
def Obligations.StoredValueReadsBack : Prop :=
  ∀ (rs rd : RegIdx) (a : Word) (s : State), s.mem.wf → a.toNat + 4 ≤ s.memSize.toNat →
    (∃ t, exec (.str rs a) s = .next t ∧
      Answers (.ldr rd a) t rd (s.reg rs) ∧ Answers (.lda rd a) t rd (s.reg rs) ∧
      ∀ k, k < 4 → Answers (.ldb rd (a + BitVec.ofNat 32 k)) t rd (((s.reg rs) >>> (8 * k)) &&& 0xFF#32)) ∧
    (∀ k, k < 4 → ∃ t, exec (.stb rs (a + BitVec.ofNat 32 k)) s = .next t ∧
      Answers (.ldb rd (a + BitVec.ofNat 32 k)) t rd ((s.reg rs) &&& 0xFF#32) ∧
      ∀ j, j < 4 → byteAt t (a.toNat + j) = if j = k then (s.reg rs).setWidth 8 else byteAt s (a.toNat + j))

/-- A store, STR or STB, of any register at any address is seen by the next fetch, with no delay and no fence: the
next record is fetched with exactly the stored bytes replaced, whichever of its bytes they are. The instruction that
stores stays as it was fetched, even where it stores into its own record. -/
def Obligations.StoreIsSeenByNextFetch : Prop :=
  ∀ (s : State) (i : Instr) (rs : RegIdx) (a : Word) (n : Nat),
    (i = .str rs a ∧ n = 4 ∨ i = .stb rs a ∧ n = 1) → Fetches s i → s.mem.wf → s.term = false →
    a.toNat + n ≤ s.memSize.toNat → s.pc.toNat + 16 ≤ s.memSize.toNat →
    ∃ t u, step s = .next t ∧ t.ir = recordAt s ∧
      (∀ b, byteAt t b = byteAfterStore s a.toNat n (cycleReg s rs) b) ∧
      t.fetch = some u ∧ u.pc = s.pc + 16 ∧
      let f := fun k => byteAfterStore s a.toNat n (cycleReg s rs) (s.pc.toNat + 8 + k)
      u.ir = ⟨f 0, f 1, f 2, f 3, f 7 ++ f 6 ++ f 5 ++ f 4⟩

/-! ## Arithmetic -/

/-- ADD and ADDI write the sum modulo 2^32. -/
def Obligations.AddAndAddiWrap : Prop :=
  (∀ rd rs1 rs2 s, ∃ y, Answers (.add rd rs1 rs2) s rd y ∧
    y.toNat = ((s.reg rs1).toNat + (s.reg rs2).toNat) % 2 ^ 32) ∧
  (∀ rd rs imm s, ∃ y, Answers (.addi rd rs imm) s rd y ∧ y.toNat = ((s.reg rs).toNat + imm.toNat) % 2 ^ 32)

/-- SUB and SUBI write the difference modulo 2^32. -/
def Obligations.SubAndSubiWrap : Prop :=
  (∀ rd rs1 rs2 s, ∃ y, Answers (.sub rd rs1 rs2) s rd y ∧
    (y.toNat : Int) = ((s.reg rs1).toNat - (s.reg rs2).toNat : Int) % 2 ^ 32) ∧
  (∀ rd rs imm s, ∃ y, Answers (.subi rd rs imm) s rd y ∧
    (y.toNat : Int) = ((s.reg rs).toNat - imm.toNat : Int) % 2 ^ 32)

/-- MUL and MULI write the low 32 bits of the product. -/
def Obligations.MulAndMuliWrap : Prop :=
  (∀ rd rs1 rs2 s, ∃ y, Answers (.mul rd rs1 rs2) s rd y ∧
    y.toNat = ((s.reg rs1).toNat * (s.reg rs2).toNat) % 2 ^ 32) ∧
  (∀ rd rs imm s, ∃ y, Answers (.muli rd rs imm) s rd y ∧ y.toNat = ((s.reg rs).toNat * imm.toNat) % 2 ^ 32)

/-- DIV and DIVI write the unsigned quotient, remainder discarded, and fault with nothing written when the divisor
is 0. -/
def Obligations.DivAndDiviUnsigned : Prop :=
  (∀ rd rs1 rs2 s,
    (s.reg rs2 ≠ 0 → ∃ y, Answers (.div rd rs1 rs2) s rd y ∧
      ∃ rem, (s.reg rs1).toNat = (s.reg rs2).toNat * y.toNat + rem ∧ rem < (s.reg rs2).toNat) ∧
    (s.reg rs2 = 0 → exec (.div rd rs1 rs2) s = .next (faulted s .divideByZero))) ∧
  (∀ rd rs imm s,
    (imm ≠ 0 → ∃ y, Answers (.divi rd rs imm) s rd y ∧
      ∃ rem, (s.reg rs).toNat = imm.toNat * y.toNat + rem ∧ rem < imm.toNat) ∧
    (imm = 0 → exec (.divi rd rs imm) s = .next (faulted s .divideByZero)))

/-- SDIV writes the signed quotient truncated toward zero, as a 32-bit pattern, and faults with nothing written when
the divisor is 0. That -2^31 / -1 wraps to 0x80000000 is the spec's decision D13 (log 11). -/
def Obligations.SdivTruncatesTowardZero : Prop :=
  ∀ rd rs1 rs2 s,
    (s.reg rs2 ≠ 0 → ∃ q rem : Int, Answers (.sdiv rd rs1 rs2) s rd (BitVec.ofInt 32 q) ∧
      (s.reg rs1).toInt = (s.reg rs2).toInt * q + rem ∧ |rem| < |(s.reg rs2).toInt| ∧
      (0 ≤ (s.reg rs1).toInt → 0 ≤ rem) ∧ ((s.reg rs1).toInt ≤ 0 → rem ≤ 0)) ∧
    (s.reg rs2 ≠ 0 → s.reg rs1 = 0x80000000 → s.reg rs2 = 0xFFFFFFFF → Answers (.sdiv rd rs1 rs2) s rd 0x80000000) ∧
    (s.reg rs2 = 0 → exec (.sdiv rd rs1 rs2) s = .next (faulted s .divideByZero))

/-! ## Traps -/

/-- TRP 0 sets the termination signal and nothing else, whatever its operand bytes, and the machine enters TERMINATED
with PC past it. The opcode byte 1F is the spec's decision D1 (log 10). -/
def Obligations.TrapZeroRaisesTermination : Prop :=
  (∀ s, exec (.trp 0) s = .next { s with term := true }) ∧
  (∀ a b c : Byte, decode [0x1F, a, b, c, 0x00, 0x00, 0x00, 0x00] = .ok (.trp 0, [])) ∧
  (∀ s, Fetches s (.trp 0) → ∃ t, step s = .next t ∧ t.fsm = .terminated ∧ t.pc = s.pc + 8)

/-- TRP 1 appends the signed decimal numeral of R3 to the output and does nothing else. The form of the numeral is
the spec's decision D14 (log 12). -/
def Obligations.TrapOneWritesSignedDecimal : Prop :=
  ∀ s, ∃ text, exec (.trp 1) s = .next { s with out := s.out ++ text } ∧
    IsSignedNumeral text (s.reg .r3).toInt

/-- TRP 2 reads a line: while there is neither a line nor the end of input it holds; with a line it writes the
parsed value to R3, or enters ABORTED when the line does not parse, and consumes the line and its 0x0A; at the end
of input the line is what is left. After ABORTED the host has received some prefix of the output, any of them, and
gets the exit status of an input error, which is neither the fault's nor the success value. The hold's form is log 5,
the input's log 4, and the prefix is the spec's decision D18 (log 9). -/
def Obligations.TrapTwoReadsLine : Prop :=
  ∀ s : State,
    (0x0A#8 ∉ s.input.pending → s.input.ended = false → exec (.trp 2) s = .fault .inputHold) ∧
    (∀ line rest, 0x0A#8 ∉ line →
      ∀ left consumed : List Byte,
      (s.input.pending = line ++ 0x0A#8 :: rest ∧ left = rest ∧ consumed = s.input.consumed ++ line ++ [0x0A#8] ∨
       s.input.pending = line ∧ s.input.ended = true ∧ left = [] ∧ consumed = s.input.consumed ++ line) →
      (∀ v, parseInt line = some v →
        ∃ t, exec (.trp 2) s = .next t ∧
          WritesReg { s with input := ⟨left, s.input.ended, consumed⟩ } t .r3 (BitVec.ofInt 32 v)) ∧
      (parseInt line = none →
        ∃ t, exec (.trp 2) s = .next t ∧
          t = { s with input := ⟨left, s.input.ended, consumed⟩, fsm := .aborted } ∧
          t.outcome = some .aborted ∧ (∀ received, t.mayDeliver received ↔ received <+: s.out) ∧
          ∀ h : Config.HostReport, h.Lawful → t.exitStatus h = some (h.exitStatus .unparsableInteger) ∧
            h.exitStatus .unparsableInteger ≠ h.exitStatus .fault ∧
            h.exitStatus .unparsableInteger ≠ h.successValue))

/-- PARSE_INT on numerals and on the empty line: an optional `-` and one or more digits give their value when it is
in range and none when it is not; the empty line gives none. The range is the spec's decision D15; on other lines
nothing is stated (log 7). -/
def Obligations.ParseIntOnNumerals : Prop :=
  (∀ ds : List Byte, ds ≠ [] → (∀ b ∈ ds, 0x30 ≤ b.toNat ∧ b.toNat ≤ 0x39) →
    ∀ n : Nat, ds.foldl (fun v b => 10 * v + (b.toNat - 0x30)) 0 = n →
      parseInt ds = (if n < 2 ^ 31 then some (n : Int) else none) ∧
      parseInt (0x2D :: ds) = (if n ≤ 2 ^ 31 then some (-(n : Int)) else none)) ∧
  parseInt [] = none

/-- What TRP 1 writes, TRP 2 reads back: a line holding the numeral that TRP 1 emits for R3 parses to R3's value. -/
def Obligations.WrittenIntegerReadsBack : Prop :=
  ∀ s : State, ∃ text, exec (.trp 1) s = .next { s with out := s.out ++ text } ∧
    parseInt text = some (s.reg .r3).toInt ∧ 0x0A#8 ∉ text

/-- 45_trap.md R217: TRP 3 appends R3's low byte to the output and does nothing else. -/
def Obligations.TrapThreeWritesLowByte : Prop :=
  ∀ s, exec (.trp 3) s = .next { s with out := s.out ++ [(s.reg .r3).extractLsb' 0 8] }

/-- TRP 4 reads a character: while there is neither a byte nor the end of input it holds; with a byte, whatever it
is, it writes it zero-extended to R3 and consumes it; at the end of input it writes a drawn value, which is left
open, and consumes nothing. The zero-extension is the spec's decision D16 (log 12), the draw log 8. -/
def Obligations.TrapFourReadsCharacter : Prop :=
  ∀ s : State,
    (s.input.pending = [] → s.input.ended = false → exec (.trp 4) s = .fault .inputHold) ∧
    (∀ b rest, s.input.pending = b :: rest →
      ∃ t, exec (.trp 4) s = .next t ∧
        WritesReg { s with input := ⟨rest, s.input.ended, s.input.consumed ++ [b]⟩ } t .r3 (b.setWidth 32)) ∧
    (s.input.pending = [] → s.input.ended = true →
      ∃ t, exec (.trp 4) s = .next t ∧
        WritesReg { s with draws := s.draws + 1 } t .r3 (Config.trp4EofValue s.draws))

/-- TRP 98 appends one line for each of the 22 registers, in index order: its name, a tab, the unsigned decimal
numeral of its value, a newline; nothing else changes. The format of value and name is the spec's decision D17
(log 12). -/
def Obligations.TrapNinetyEightDumpsRegisters : Prop :=
  ∀ s, ∃ numerals : RegIdx → List Byte, (∀ r, IsNumeral (numerals r) (s.reg r).toNat) ∧
    exec (.trp 98) s = .next { s with
      out := s.out ++ (List.finRange 22).flatMap fun r =>
        dumpNames[r.val]! ++ [0x09#8] ++ numerals r ++ [0x0A#8] }

/-- 30_encoding.md R93, 45_trap.md R223: a TRP with any other immediate decodes and faults in execute with
InvalidTrapCode; nothing is written, no byte emitted, no input consumed. -/
def Obligations.OtherTrapCodesFault : Prop :=
  (∀ code : Word, code ∉ [0, 1, 2, 3, 4, 98] → decode (encode (.trp code)) = .ok (.trp code, [])) ∧
  (∀ (code : Word) (s : State), code ∉ [0, 1, 2, 3, 4, 98] →
    exec (.trp code) s = .next { s with faultAddr := s.startPc, faultKind := some .invalidTrapCode, fsm := .faulted }) ∧
  (∀ s : State, Fetches s (.trp 5) → s.pc = 20 →
    ∃ t, step s = .next t ∧ t.fsm = .faulted ∧ t.faultAddr = 20)

/-! ## Launch -/

/-- 70_reset_and_hazards.md R270: after a launch memory holds the image from offset 0 and zeros beyond it. -/
def Obligations.LaunchLoadsImage : Prop :=
  ∀ (n : Nat) (image : List Byte), n < 2 ^ 32 → 4 ≤ image.length → image.length ≤ n →
    ∃ s, launch n (some image) = .ready s ∧ s.memSize.toNat = n ∧
      ∀ k, byteAt s k = image.getD k 0

/-- The rest of the state after a launch: PC is the little-endian word of the first four image bytes, every other
register and control field is at its reset value. The byte order of the initial PC word and the values of the IR
and fault registers are the spec's decisions D9 and D10 (log 13); the empty input is the model's choice (log 4). -/
def Obligations.LaunchSetsTheState : Prop :=
  ∀ (n : Nat) (b0 b1 b2 b3 : Byte) (more : List Byte) (s : State),
    launch n (some (b0 :: b1 :: b2 :: b3 :: more)) = .ready s →
    s.pc = b3 ++ b2 ++ b1 ++ b0 ∧ (∀ r, r ≠ RegIdx.pc → s.reg r = 0) ∧
    s = { State.reset with regs := s.regs, mem := s.mem, memSize := s.memSize }

/-- The launches that do not start the CORE: a memory size of more than 32 bits, no program argument, an image above
the memory size, each with an exit status of its own, and an image or memory shorter than 4 bytes, which the model
refuses (the spec's decision D8). The order of the checks is the model's choice (log 6). -/
def Obligations.LaunchRefusals : Prop :=
  (∀ (n : Nat) (image : Option (List Byte)), 2 ^ 32 ≤ n → EndsBeforeReset n image .unparsableMemorySize) ∧
  (∀ n : Nat, n < 2 ^ 32 → EndsBeforeReset n none .missingProgramArgument) ∧
  (∀ (n : Nat) (image : List Byte), n < 2 ^ 32 → n < 4 ∨ image.length < 4 →
    launch n (some image) = .refused .launchWithoutPcWord) ∧
  (∀ (n : Nat) (image : List Byte), n < 2 ^ 32 → 4 ≤ n → 4 ≤ image.length → n < image.length →
    EndsBeforeReset n (some image) .imageTooLarge)

/-- The state after reset: all 22 registers, memory, IR and control registers at the values of 10_state.md section
5, with the default MEM_SIZE; it is the launch of a four-byte image of zeros (log 2). -/
def Obligations.ResetState : Prop :=
  (∀ r, State.reset.reg r = 0) ∧ (∀ a, byteAt State.reset a = 0) ∧ State.reset.memSize.toNat = 2 ^ 17 ∧
  State.reset.ir = ⟨0, 0, 0, 0, 0⟩ ∧ State.reset.term = false ∧ State.reset.fsm = .running ∧
  State.reset.startPc = 0 ∧ State.reset.faultAddr = 0 ∧ State.reset.faultKind = none ∧ State.reset.out = [] ∧
  launch (2 ^ 17) (some [0, 0, 0, 0]) = .ready State.reset
end

