-- ==== Sys2Proof/Laws/Decode.lean ====
section
/-! SUPPORT. The decoder: what a slot check answers, and what each operand class answers. -/

namespace Sys2Proof

theorem regByte_toNat (r : RegIdx) : (regByte r).toNat = r.val := by
  have := r.isLt
  simp only [regByte, BitVec.toNat_ofNat]
  omega

@[simp] theorem slotReg_regByte (r : RegIdx) : slotReg (regByte r) = .ok r := by
  simp [slotReg, regByte_toNat]

/-- A slot names a register exactly when its byte is at most 21 (30_encoding.md R88). -/
theorem slotReg_ok {b : Byte} {r : RegIdx} (h : slotReg b = .ok r) : b.toNat < 22 ∧ regByte r = b := by
  unfold slotReg at h
  split at h
  · rename_i hb
    cases h
    exact ⟨hb, BitVec.eq_of_toNat_eq (by rw [regByte_toNat])⟩
  · cases h

theorem slotReg_of_lt {b : Byte} (h : b.toNat < 22) : slotReg b = .ok ⟨b.toNat, h⟩ := dif_pos h

theorem slotReg_of_ge {b : Byte} (h : ¬ b.toNat < 22) : slotReg b = .error .invalidOperand := dif_neg h

/-- The four bytes of an immediate, least significant first (30_encoding.md R82). -/
theorem ofNat_leNat_four (b0 b1 b2 b3 : Byte) : BitVec.ofNat 32 (leNat [b0, b1, b2, b3]) = b3 ++ b2 ++ b1 ++ b0 := by
  apply BitVec.eq_of_toNat_eq
  have h0 := b0.isLt
  have h1 := b1.isLt
  have h2 := b2.isLt
  have h3 := b3.isLt
  simp only [leNat, BitVec.toNat_ofNat, BitVec.toNat_append]
  rw [← Nat.shiftLeft_add_eq_or_of_lt (by omega), ← Nat.shiftLeft_add_eq_or_of_lt (by omega),
    ← Nat.shiftLeft_add_eq_or_of_lt (by omega)]
  simp only [Nat.shiftLeft_eq]
  omega

/-- The bytes of a record are read back as the record. -/
theorem takeRecord_bytes (r : Record) (rest : List Byte) : takeRecord (r.bytes ++ rest) = some (r, rest) := by
  have h := r.imm.isLt
  have e : BitVec.ofNat 32 (leNat (leBytes 4 r.imm.toNat)) = r.imm := by
    apply BitVec.eq_of_toNat_eq
    have : leNat (leBytes 4 r.imm.toNat) = r.imm.toNat := by
      simp only [leBytes, leNat, BitVec.toNat_ofNat]
      omega
    rw [this]
    simp
  simp only [leBytes] at e
  simp only [Record.bytes, leBytes, List.cons_append, List.nil_append, takeRecord, recordOf, e]

end Sys2Proof
end

