-- ==== Sys2Proof/Laws/State.lean ====
section
/-! SUPPORT. One lemma for each field of State under each update: what the update puts there, or that it leaves the field alone; and one for the half of State, the machine's or the environment's, that the update leaves whole. -/

namespace Sys2Proof.Machine

section setReg

variable (s : State) (r : RegIdx) (v : Word)

@[simp] theorem State.setReg_regs : (s.setReg r v).regs = s.regs.set r.val v := rfl
@[simp] theorem State.setReg_mem : (s.setReg r v).mem = s.mem := rfl
@[simp] theorem State.setReg_ir : (s.setReg r v).ir = s.ir := rfl
@[simp] theorem State.setReg_term : (s.setReg r v).term = s.term := rfl
@[simp] theorem State.setReg_fsm : (s.setReg r v).fsm = s.fsm := rfl
@[simp] theorem State.setReg_startPc : (s.setReg r v).startPc = s.startPc := rfl
@[simp] theorem State.setReg_faultAddr : (s.setReg r v).faultAddr = s.faultAddr := rfl
@[simp] theorem State.setReg_faultKind : (s.setReg r v).faultKind = s.faultKind := rfl
@[simp] theorem State.setReg_out : (s.setReg r v).out = s.out := rfl
@[simp] theorem State.setReg_memSize : (s.setReg r v).memSize = s.memSize := rfl
@[simp] theorem State.setReg_input : (s.setReg r v).input = s.input := rfl
@[simp] theorem State.setReg_draws : (s.setReg r v).draws = s.draws := rfl
@[simp] theorem State.setReg_toEnvironment : (s.setReg r v).toEnvironment = s.toEnvironment := rfl

end setReg

section setPc

variable (s : State) (v : Word)

@[simp] theorem State.setPc_regs : (s.setPc v).regs = s.regs.set 16 v := rfl
@[simp] theorem State.setPc_mem : (s.setPc v).mem = s.mem := rfl
@[simp] theorem State.setPc_ir : (s.setPc v).ir = s.ir := rfl
@[simp] theorem State.setPc_term : (s.setPc v).term = s.term := rfl
@[simp] theorem State.setPc_fsm : (s.setPc v).fsm = s.fsm := rfl
@[simp] theorem State.setPc_startPc : (s.setPc v).startPc = s.startPc := rfl
@[simp] theorem State.setPc_faultAddr : (s.setPc v).faultAddr = s.faultAddr := rfl
@[simp] theorem State.setPc_faultKind : (s.setPc v).faultKind = s.faultKind := rfl
@[simp] theorem State.setPc_out : (s.setPc v).out = s.out := rfl
@[simp] theorem State.setPc_memSize : (s.setPc v).memSize = s.memSize := rfl
@[simp] theorem State.setPc_input : (s.setPc v).input = s.input := rfl
@[simp] theorem State.setPc_draws : (s.setPc v).draws = s.draws := rfl
@[simp] theorem State.setPc_toEnvironment : (s.setPc v).toEnvironment = s.toEnvironment := rfl

end setPc

section emit

variable (s : State) (bs : List Byte)

@[simp] theorem State.emit_regs : (s.emit bs).regs = s.regs := rfl
@[simp] theorem State.emit_mem : (s.emit bs).mem = s.mem := rfl
@[simp] theorem State.emit_ir : (s.emit bs).ir = s.ir := rfl
@[simp] theorem State.emit_term : (s.emit bs).term = s.term := rfl
@[simp] theorem State.emit_fsm : (s.emit bs).fsm = s.fsm := rfl
@[simp] theorem State.emit_startPc : (s.emit bs).startPc = s.startPc := rfl
@[simp] theorem State.emit_faultAddr : (s.emit bs).faultAddr = s.faultAddr := rfl
@[simp] theorem State.emit_faultKind : (s.emit bs).faultKind = s.faultKind := rfl
@[simp] theorem State.emit_out : (s.emit bs).out = s.out ++ bs := rfl
@[simp] theorem State.emit_memSize : (s.emit bs).memSize = s.memSize := rfl
@[simp] theorem State.emit_input : (s.emit bs).input = s.input := rfl
@[simp] theorem State.emit_draws : (s.emit bs).draws = s.draws := rfl
@[simp] theorem State.emit_toEnvironment : (s.emit bs).toEnvironment = s.toEnvironment := rfl
@[simp] theorem State.emit_reg (i : RegIdx) : (s.emit bs).reg i = s.reg i := rfl
@[simp] theorem State.emit_pc : (s.emit bs).pc = s.pc := rfl

end emit

section supply

variable (s : State) (bs : List Byte)

@[simp] theorem State.supply_regs : (s.supply bs).regs = s.regs := rfl
@[simp] theorem State.supply_mem : (s.supply bs).mem = s.mem := rfl
@[simp] theorem State.supply_ir : (s.supply bs).ir = s.ir := rfl
@[simp] theorem State.supply_term : (s.supply bs).term = s.term := rfl
@[simp] theorem State.supply_fsm : (s.supply bs).fsm = s.fsm := rfl
@[simp] theorem State.supply_startPc : (s.supply bs).startPc = s.startPc := rfl
@[simp] theorem State.supply_faultAddr : (s.supply bs).faultAddr = s.faultAddr := rfl
@[simp] theorem State.supply_faultKind : (s.supply bs).faultKind = s.faultKind := rfl
@[simp] theorem State.supply_out : (s.supply bs).out = s.out := rfl
@[simp] theorem State.supply_memSize : (s.supply bs).memSize = s.memSize := rfl
@[simp] theorem State.supply_input : (s.supply bs).input = { s.input with pending := s.input.pending ++ bs } := rfl
@[simp] theorem State.supply_draws : (s.supply bs).draws = s.draws := rfl
@[simp] theorem State.supply_toCoreState : (s.supply bs).toCoreState = s.toCoreState := rfl
@[simp] theorem State.supply_reg (i : RegIdx) : (s.supply bs).reg i = s.reg i := rfl
@[simp] theorem State.supply_pc : (s.supply bs).pc = s.pc := rfl

end supply

section endInput

variable (s : State)

@[simp] theorem State.endInput_regs : (s.endInput).regs = s.regs := rfl
@[simp] theorem State.endInput_mem : (s.endInput).mem = s.mem := rfl
@[simp] theorem State.endInput_ir : (s.endInput).ir = s.ir := rfl
@[simp] theorem State.endInput_term : (s.endInput).term = s.term := rfl
@[simp] theorem State.endInput_fsm : (s.endInput).fsm = s.fsm := rfl
@[simp] theorem State.endInput_startPc : (s.endInput).startPc = s.startPc := rfl
@[simp] theorem State.endInput_faultAddr : (s.endInput).faultAddr = s.faultAddr := rfl
@[simp] theorem State.endInput_faultKind : (s.endInput).faultKind = s.faultKind := rfl
@[simp] theorem State.endInput_out : (s.endInput).out = s.out := rfl
@[simp] theorem State.endInput_memSize : (s.endInput).memSize = s.memSize := rfl
@[simp] theorem State.endInput_input : (s.endInput).input = { s.input with ended := true } := rfl
@[simp] theorem State.endInput_draws : (s.endInput).draws = s.draws := rfl
@[simp] theorem State.endInput_toCoreState : (s.endInput).toCoreState = s.toCoreState := rfl
@[simp] theorem State.endInput_reg (i : RegIdx) : (s.endInput).reg i = s.reg i := rfl
@[simp] theorem State.endInput_pc : (s.endInput).pc = s.pc := rfl

end endInput

section setInput

variable (s : State) (h : HostInput)

@[simp] theorem State.setInput_regs : (s.setInput h).regs = s.regs := rfl
@[simp] theorem State.setInput_mem : (s.setInput h).mem = s.mem := rfl
@[simp] theorem State.setInput_ir : (s.setInput h).ir = s.ir := rfl
@[simp] theorem State.setInput_term : (s.setInput h).term = s.term := rfl
@[simp] theorem State.setInput_fsm : (s.setInput h).fsm = s.fsm := rfl
@[simp] theorem State.setInput_startPc : (s.setInput h).startPc = s.startPc := rfl
@[simp] theorem State.setInput_faultAddr : (s.setInput h).faultAddr = s.faultAddr := rfl
@[simp] theorem State.setInput_faultKind : (s.setInput h).faultKind = s.faultKind := rfl
@[simp] theorem State.setInput_out : (s.setInput h).out = s.out := rfl
@[simp] theorem State.setInput_memSize : (s.setInput h).memSize = s.memSize := rfl
@[simp] theorem State.setInput_input : (s.setInput h).input = h := rfl
@[simp] theorem State.setInput_draws : (s.setInput h).draws = s.draws := rfl
@[simp] theorem State.setInput_toCoreState : (s.setInput h).toCoreState = s.toCoreState := rfl
@[simp] theorem State.setInput_reg (i : RegIdx) : (s.setInput h).reg i = s.reg i := rfl
@[simp] theorem State.setInput_pc : (s.setInput h).pc = s.pc := rfl

end setInput

section takeFault

variable (s : State) (k : FaultKind)

@[simp] theorem State.takeFault_regs : (s.takeFault k).regs = s.regs := rfl
@[simp] theorem State.takeFault_mem : (s.takeFault k).mem = s.mem := rfl
@[simp] theorem State.takeFault_ir : (s.takeFault k).ir = s.ir := rfl
@[simp] theorem State.takeFault_term : (s.takeFault k).term = s.term := rfl
@[simp] theorem State.takeFault_fsm : (s.takeFault k).fsm = .faulted := rfl
@[simp] theorem State.takeFault_startPc : (s.takeFault k).startPc = s.startPc := rfl
@[simp] theorem State.takeFault_faultAddr : (s.takeFault k).faultAddr = s.startPc := rfl
@[simp] theorem State.takeFault_faultKind : (s.takeFault k).faultKind = some k := rfl
@[simp] theorem State.takeFault_out : (s.takeFault k).out = s.out := rfl
@[simp] theorem State.takeFault_memSize : (s.takeFault k).memSize = s.memSize := rfl
@[simp] theorem State.takeFault_input : (s.takeFault k).input = s.input := rfl
@[simp] theorem State.takeFault_draws : (s.takeFault k).draws = s.draws := rfl
@[simp] theorem State.takeFault_toEnvironment : (s.takeFault k).toEnvironment = s.toEnvironment := rfl
@[simp] theorem State.takeFault_reg (i : RegIdx) : (s.takeFault k).reg i = s.reg i := rfl
@[simp] theorem State.takeFault_pc : (s.takeFault k).pc = s.pc := rfl

end takeFault

section hostAbort

variable (s : State)

@[simp] theorem State.hostAbort_regs : (s.hostAbort).regs = s.regs := rfl
@[simp] theorem State.hostAbort_mem : (s.hostAbort).mem = s.mem := rfl
@[simp] theorem State.hostAbort_ir : (s.hostAbort).ir = s.ir := rfl
@[simp] theorem State.hostAbort_term : (s.hostAbort).term = s.term := rfl
@[simp] theorem State.hostAbort_fsm : (s.hostAbort).fsm = .aborted := rfl
@[simp] theorem State.hostAbort_startPc : (s.hostAbort).startPc = s.startPc := rfl
@[simp] theorem State.hostAbort_faultAddr : (s.hostAbort).faultAddr = s.faultAddr := rfl
@[simp] theorem State.hostAbort_faultKind : (s.hostAbort).faultKind = s.faultKind := rfl
@[simp] theorem State.hostAbort_out : (s.hostAbort).out = s.out := rfl
@[simp] theorem State.hostAbort_memSize : (s.hostAbort).memSize = s.memSize := rfl
@[simp] theorem State.hostAbort_input : (s.hostAbort).input = s.input := rfl
@[simp] theorem State.hostAbort_draws : (s.hostAbort).draws = s.draws := rfl
@[simp] theorem State.hostAbort_toEnvironment : (s.hostAbort).toEnvironment = s.toEnvironment := rfl
@[simp] theorem State.hostAbort_reg (i : RegIdx) : (s.hostAbort).reg i = s.reg i := rfl
@[simp] theorem State.hostAbort_pc : (s.hostAbort).pc = s.pc := rfl

end hostAbort

section latchStart

variable (s : State)

@[simp] theorem State.latchStart_regs : (s.latchStart).regs = s.regs := rfl
@[simp] theorem State.latchStart_mem : (s.latchStart).mem = s.mem := rfl
@[simp] theorem State.latchStart_ir : (s.latchStart).ir = s.ir := rfl
@[simp] theorem State.latchStart_term : (s.latchStart).term = s.term := rfl
@[simp] theorem State.latchStart_fsm : (s.latchStart).fsm = s.fsm := rfl
@[simp] theorem State.latchStart_startPc : (s.latchStart).startPc = s.pc := rfl
@[simp] theorem State.latchStart_faultAddr : (s.latchStart).faultAddr = s.faultAddr := rfl
@[simp] theorem State.latchStart_faultKind : (s.latchStart).faultKind = s.faultKind := rfl
@[simp] theorem State.latchStart_out : (s.latchStart).out = s.out := rfl
@[simp] theorem State.latchStart_memSize : (s.latchStart).memSize = s.memSize := rfl
@[simp] theorem State.latchStart_input : (s.latchStart).input = s.input := rfl
@[simp] theorem State.latchStart_draws : (s.latchStart).draws = s.draws := rfl
@[simp] theorem State.latchStart_toEnvironment : (s.latchStart).toEnvironment = s.toEnvironment := rfl
@[simp] theorem State.latchStart_reg (i : RegIdx) : (s.latchStart).reg i = s.reg i := rfl
@[simp] theorem State.latchStart_pc : (s.latchStart).pc = s.pc := rfl

end latchStart

section setIr

variable (s : State) (r : Record)

@[simp] theorem State.setIr_regs : (s.setIr r).regs = s.regs := rfl
@[simp] theorem State.setIr_mem : (s.setIr r).mem = s.mem := rfl
@[simp] theorem State.setIr_ir : (s.setIr r).ir = r := rfl
@[simp] theorem State.setIr_term : (s.setIr r).term = s.term := rfl
@[simp] theorem State.setIr_fsm : (s.setIr r).fsm = s.fsm := rfl
@[simp] theorem State.setIr_startPc : (s.setIr r).startPc = s.startPc := rfl
@[simp] theorem State.setIr_faultAddr : (s.setIr r).faultAddr = s.faultAddr := rfl
@[simp] theorem State.setIr_faultKind : (s.setIr r).faultKind = s.faultKind := rfl
@[simp] theorem State.setIr_out : (s.setIr r).out = s.out := rfl
@[simp] theorem State.setIr_memSize : (s.setIr r).memSize = s.memSize := rfl
@[simp] theorem State.setIr_input : (s.setIr r).input = s.input := rfl
@[simp] theorem State.setIr_draws : (s.setIr r).draws = s.draws := rfl
@[simp] theorem State.setIr_toEnvironment : (s.setIr r).toEnvironment = s.toEnvironment := rfl
@[simp] theorem State.setIr_reg (i : RegIdx) : (s.setIr r).reg i = s.reg i := rfl
@[simp] theorem State.setIr_pc : (s.setIr r).pc = s.pc := rfl

end setIr

section raiseTerm

variable (s : State)

@[simp] theorem State.raiseTerm_regs : (s.raiseTerm).regs = s.regs := rfl
@[simp] theorem State.raiseTerm_mem : (s.raiseTerm).mem = s.mem := rfl
@[simp] theorem State.raiseTerm_ir : (s.raiseTerm).ir = s.ir := rfl
@[simp] theorem State.raiseTerm_term : (s.raiseTerm).term = true := rfl
@[simp] theorem State.raiseTerm_fsm : (s.raiseTerm).fsm = s.fsm := rfl
@[simp] theorem State.raiseTerm_startPc : (s.raiseTerm).startPc = s.startPc := rfl
@[simp] theorem State.raiseTerm_faultAddr : (s.raiseTerm).faultAddr = s.faultAddr := rfl
@[simp] theorem State.raiseTerm_faultKind : (s.raiseTerm).faultKind = s.faultKind := rfl
@[simp] theorem State.raiseTerm_out : (s.raiseTerm).out = s.out := rfl
@[simp] theorem State.raiseTerm_memSize : (s.raiseTerm).memSize = s.memSize := rfl
@[simp] theorem State.raiseTerm_input : (s.raiseTerm).input = s.input := rfl
@[simp] theorem State.raiseTerm_draws : (s.raiseTerm).draws = s.draws := rfl
@[simp] theorem State.raiseTerm_toEnvironment : (s.raiseTerm).toEnvironment = s.toEnvironment := rfl
@[simp] theorem State.raiseTerm_reg (i : RegIdx) : (s.raiseTerm).reg i = s.reg i := rfl
@[simp] theorem State.raiseTerm_pc : (s.raiseTerm).pc = s.pc := rfl

end raiseTerm

section drawEofValue

variable (s : State)

@[simp] theorem State.drawEofValue_value : s.drawEofValue.1 = Config.trp4EofValue s.draws := rfl
@[simp] theorem State.drawEofValue_toCoreState : s.drawEofValue.2.toCoreState = s.toCoreState := rfl
@[simp] theorem State.drawEofValue_memSize : s.drawEofValue.2.memSize = s.memSize := rfl
@[simp] theorem State.drawEofValue_input : s.drawEofValue.2.input = s.input := rfl
@[simp] theorem State.drawEofValue_draws : s.drawEofValue.2.draws = s.draws + 1 := rfl

end drawEofValue

end Sys2Proof.Machine
end

