-- ==== Sys2Proof/Laws/Input.lean ====
section
/-! SUPPORT. The host input: when a line is there and what taking it leaves (45_trap.md R216, R218, R222). -/

namespace Sys2Proof.Machine

theorem splitLine_eq_none (bs : List Byte) : splitLine bs = none ↔ 0x0A#8 ∉ bs := by
  induction bs with
  | nil => simp [splitLine]
  | cons b bs ih =>
    rw [List.mem_cons, not_or, ← ih, splitLine]
    by_cases hb : b = 0x0A#8
    · simp [hb]
    · rw [if_neg hb]
      cases splitLine bs <;> simp [Ne.symm hb]

/-- The first line of a byte string that has one. -/
theorem splitLine_append (line rest : List Byte) (h : 0x0A#8 ∉ line) :
    splitLine (line ++ 0x0A#8 :: rest) = some (line, rest) := by
  induction line with
  | nil => simp [splitLine]
  | cons b bs ih =>
    rw [List.mem_cons, not_or] at h
    rw [List.cons_append, splitLine, if_neg (Ne.symm h.1), ih h.2]

/-- A line split off, its 0x0A and the rest make up the byte string. -/
theorem splitLine_some {bs line rest : List Byte} (h : splitLine bs = some (line, rest)) :
    bs = line ++ 0x0A#8 :: rest := by
  induction bs generalizing line with
  | nil => simp [splitLine] at h
  | cons b bs ih =>
    rw [splitLine] at h
    split at h
    · rename_i hb
      cases h
      rw [hb, List.nil_append]
    · cases hs : splitLine bs with
      | none => simp [hs] at h
      | some p =>
        obtain ⟨l, r⟩ := p
        rw [hs] at h
        cases h
        rw [ih hs, List.cons_append]

/-- No line is there exactly when no 0x0A is pending and the input has not ended (45_trap.md R222). -/
theorem HostInput.takeLine_eq_none (h : HostInput) :
    h.takeLine = none ↔ 0x0A#8 ∉ h.pending ∧ h.ended = false := by
  rw [← splitLine_eq_none, HostInput.takeLine]
  cases splitLine h.pending <;> cases h.ended <;> simp

/-- Taking a line moves bytes from the pending input to the consumed input and changes nothing else. -/
theorem HostInput.takeLine_some {h h' : HostInput} {line : List Byte} (e : h.takeLine = some (line, h')) :
    h'.consumed ++ h'.pending = h.consumed ++ h.pending ∧ h.consumed <+: h'.consumed ∧ h'.ended = h.ended := by
  rw [HostInput.takeLine] at e
  split at e
  · rename_i l r hs
    cases e
    simp [splitLine_some hs, List.append_assoc]
  · split at e
    · cases e
      simp
    · cases e

end Sys2Proof.Machine
end

