-- ==== Sys2Proof/Laws/Memory.lean ====
section
/-! SUPPORT. Memory: a read after a write, every other byte left alone, and every operation keeping the canonical form. -/

namespace Sys2Proof

/-! ## Byte order -/

@[simp] theorem leBytes_length (n v : Nat) : (leBytes n v).length = n := by
  induction n generalizing v with
  | zero => rfl
  | succ n ih => simp [leBytes, ih]

theorem leNat_lt (bs : List Byte) : leNat bs < 256 ^ bs.length := by
  induction bs with
  | nil => simp [leNat]
  | cons b bs ih =>
    have hb := b.isLt
    simp only [leNat, List.length_cons, Nat.pow_succ]
    omega

/-- Reading back the bytes of a value gives the value, as far as the bytes hold it. -/
theorem leNat_leBytes (n v : Nat) : leNat (leBytes n v) = v % 256 ^ n := by
  induction n generalizing v with
  | zero => simp [leBytes, leNat, Nat.mod_one]
  | succ n ih =>
    have h8 : (2 : Nat) ^ 8 = 256 := rfl
    rw [leBytes, leNat, ih, BitVec.toNat_ofNat, h8, Nat.pow_succ, Nat.mul_comm (256 ^ n) 256, Nat.mod_mul]

/-- Byte `k` of a value is its bits 8k+7 down to 8k. -/
theorem leBytes_getElem (n v k : Nat) (h : k < (leBytes n v).length) :
    (leBytes n v)[k] = BitVec.ofNat 8 (v / 256 ^ k) := by
  induction n generalizing v k with
  | zero => simp at h
  | succ n ih =>
    cases k with
    | zero => simp [leBytes]
    | succ k =>
      have := ih (v / 256) k (by simpa using h)
      simp only [leBytes, List.getElem_cons_succ, this, Nat.div_div_eq_div_mul, Nat.pow_succ, Nat.mul_comm]

namespace Machine

/-! ## One byte -/

@[simp] theorem Memory.read_nil (k : Nat) : Memory.read [] k = 0 := rfl

theorem Memory.read_write (m : Memory) (k j : Nat) (v : Byte) (hm : m.wf) :
    (m.write k v).read j = if j = k then v else m.read j := by
  induction m with
  | nil =>
    simp only [Memory.write]
    by_cases hv : v = 0
    · simp [hv]
    · rw [if_neg hv]
      by_cases hj : j = k
      · simp [hj, Memory.read]
      · simp [hj, Memory.read, Ne.symm hj]
  | cons c m ih =>
    have hwf : Memory.wf m := ⟨hm.1.of_cons, fun d hd => hm.2 d (List.mem_cons_of_mem _ hd)⟩
    have hlt : ∀ d ∈ m, c.1 < d.1 := (List.pairwise_cons.mp hm.1).1
    have hbelow : ∀ i, i ≤ c.1 → Memory.read m i = 0 := by
      intro i hi
      clear ih hwf hm
      induction m with
      | nil => rfl
      | cons d m ih =>
        have hd := hlt d (by simp)
        simp only [Memory.read]
        rw [if_neg (by omega)]
        exact ih fun e he => hlt e (List.mem_cons_of_mem _ he)
    simp only [Memory.write]
    split
    · rename_i hk
      split
      · rename_i hv
        subst hv
        by_cases hj : j = k
        · subst hj
          simp only [Memory.read, if_true]
          rw [if_neg (by omega), hbelow _ (by omega)]
        · simp [hj]
      · simp only [Memory.read]
        by_cases hj : j = k
        · simp [hj]
        · simp [hj, Ne.symm hj]
    · split
      · rename_i hk
        subst hk
        split
        · rename_i hv
          subst hv
          by_cases hj : j = c.1
          · subst hj
            simp [hbelow]
          · simp [Memory.read, hj, Ne.symm hj]
        · by_cases hj : j = c.1
          · subst hj
            simp [Memory.read]
          · simp [Memory.read, hj, Ne.symm hj]
      · rename_i h1 h2
        simp only [Memory.read, ih hwf]
        by_cases hc : c.1 = j
        · subst hc
          simp [Ne.symm h2]
        · simp [hc]

theorem Memory.mem_write {m : Memory} {k : Nat} {v : Byte} {c : Host.Cell} (h : c ∈ m.write k v) :
    c ∈ m ∨ c = (k, v) ∧ v ≠ 0 := by
  induction m with
  | nil =>
    simp only [Memory.write] at h
    split at h <;> simp_all
  | cons d m ih =>
    simp only [Memory.write] at h
    split at h
    · split at h
      · exact .inl h
      · simp only [List.mem_cons] at h ⊢
        tauto
    · split at h
      · split at h
        · exact .inl (List.mem_cons_of_mem _ h)
        · simp only [List.mem_cons] at h ⊢
          tauto
      · simp only [List.mem_cons] at h ⊢
        rcases h with h | h
        · exact .inl (.inl h)
        · rcases ih h with h | h
          · exact .inl (.inr h)
          · exact .inr h

/-- A write keeps the canonical form. -/
theorem Memory.write_wf (m : Memory) (k : Nat) (v : Byte) (hm : m.wf) : (m.write k v).wf := by
  refine ⟨?_, fun c hc => ?_⟩
  · have hp := hm.1
    clear hm
    induction m with
    | nil => simp only [Memory.write]; split <;> simp
    | cons d m ih =>
      have hlt := (List.pairwise_cons.mp hp).1
      simp only [Memory.write]
      split
      · rename_i hk
        split
        · exact hp
        · refine List.pairwise_cons.mpr ⟨fun e he => ?_, hp⟩
          rcases List.mem_cons.mp he with rfl | he
          · exact hk
          · exact Nat.lt_trans hk (hlt e he)
      · split
        · rename_i hk
          split
          · exact hp.of_cons
          · exact List.pairwise_cons.mpr ⟨fun e he => hk ▸ hlt e he, hp.of_cons⟩
        · refine List.pairwise_cons.mpr ⟨fun e he => ?_, ih hp.of_cons⟩
          rcases Memory.mem_write he with he | ⟨rfl, -⟩
          · exact hlt e he
          · show d.1 < k
            omega
  · rcases Memory.mem_write hc with hc | ⟨rfl, hv⟩
    · exact hm.2 c hc
    · exact hv

/-! ## Byte strings -/

@[simp] theorem Memory.readBytes_length (m : Memory) (a n : Nat) : (m.readBytes a n).length = n := by
  induction n generalizing a with
  | zero => rfl
  | succ n ih => simp [Memory.readBytes, ih]

theorem Memory.readBytes_getElem (m : Memory) (a n k : Nat) (h : k < (m.readBytes a n).length) :
    (m.readBytes a n)[k] = m.read (a + k) := by
  induction n generalizing a k with
  | zero => simp at h
  | succ n ih =>
    cases k with
    | zero => simp [Memory.readBytes]
    | succ k =>
      have := ih (a + 1) k (by simpa using h)
      simp only [Memory.readBytes, List.getElem_cons_succ, this]
      congr 1
      omega

/-- Two memories that read the same over a range give the same byte string there. -/
theorem Memory.readBytes_congr {m m' : Memory} {a n : Nat} (h : ∀ k, k < n → m'.read (a + k) = m.read (a + k)) :
    m'.readBytes a n = m.readBytes a n := by
  apply List.ext_getElem (by simp)
  intro k h1 h2
  rw [Memory.readBytes_getElem, Memory.readBytes_getElem]
  exact h k (by simpa using h1)

theorem Memory.writeBytes_wf (m : Memory) (a : Nat) (bs : List Byte) (hm : m.wf) : (m.writeBytes a bs).wf := by
  induction bs generalizing m a with
  | nil => exact hm
  | cons b bs ih => exact ih _ _ (Memory.write_wf m a b hm)

theorem Memory.mem_writeBytes {m : Memory} {a : Nat} {bs : List Byte} {c : Host.Cell} (h : c ∈ m.writeBytes a bs) :
    c ∈ m ∨ a ≤ c.1 ∧ c.1 < a + bs.length := by
  induction bs generalizing m a with
  | nil => exact .inl h
  | cons b bs ih =>
    rcases ih h with h | h
    · rcases Memory.mem_write h with h | ⟨rfl, -⟩
      · exact .inl h
      · exact .inr ⟨Nat.le_refl _, by simp⟩
    · right
      simp only [List.length_cons]
      omega

/-- A byte outside the written range reads as before. -/
theorem Memory.read_writeBytes_outside (m : Memory) (a j : Nat) (bs : List Byte) (hm : m.wf)
    (h : j < a ∨ a + bs.length ≤ j) : (m.writeBytes a bs).read j = m.read j := by
  induction bs generalizing m a with
  | nil => rfl
  | cons b bs ih =>
    simp only [List.length_cons] at h
    simp only [Memory.writeBytes]
    rw [ih _ _ (Memory.write_wf m a b hm) (by omega), Memory.read_write m a j b hm, if_neg (by omega)]

/-- A byte inside the written range reads as written. -/
theorem Memory.read_writeBytes_inside (m : Memory) (a k : Nat) (bs : List Byte) (hm : m.wf) (h : k < bs.length) :
    (m.writeBytes a bs).read (a + k) = bs[k] := by
  induction bs generalizing m a k with
  | nil => simp at h
  | cons b bs ih =>
    have hw := Memory.write_wf m a b hm
    cases k with
    | zero =>
      simp only [Memory.writeBytes, Nat.add_zero]
      rw [Memory.read_writeBytes_outside _ _ _ _ hw (by omega), Memory.read_write m a a b hm]
      simp
    | succ k =>
      have := ih (m.write a b) (a + 1) k hw (by simpa using h)
      simp only [Memory.writeBytes, List.getElem_cons_succ, ← this]
      congr 1
      omega

/-- Reading back a written byte string gives the byte string. -/
theorem Memory.readBytes_writeBytes (m : Memory) (a : Nat) (bs : List Byte) (hm : m.wf) :
    (m.writeBytes a bs).readBytes a bs.length = bs := by
  apply List.ext_getElem (by simp)
  intro k h1 h2
  rw [Memory.readBytes_getElem, Memory.read_writeBytes_inside _ _ _ _ hm h2]

/-! ## The ports -/

theorem State.inBounds_iff (s : State) (a k : Nat) : s.inBounds a k = true ↔ a + k ≤ s.memSize.toNat := by
  simp [State.inBounds]

theorem State.memRd_eq (s : State) (a : Word) (n : Nat) :
    s.memRd a n = if a.toNat + n ≤ s.memSize.toNat then some (s.mem.readBytes a.toNat n) else none := by
  simp [State.memRd, State.inBounds]

theorem State.memWr_eq (s : State) (a : Word) (bs : List Byte) :
    s.memWr a bs = if a.toNat + bs.length ≤ s.memSize.toNat
      then some { s with mem := s.mem.writeBytes a.toNat bs } else none := by
  simp [State.memWr, State.inBounds]

end Machine

end Sys2Proof
end

