-- ==== Sys2Proof/Laws/Registers.lean ====
section
/-! SUPPORT. The register file: a read after a write, and every other cell left alone (10_state.md R22). -/

namespace Sys2Proof.Machine

@[simp] theorem State.setReg_reg_same (s : State) (r : RegIdx) (v : Word) : (s.setReg r v).reg r = v := by
  simp [State.reg]

theorem State.setReg_reg (s : State) (r i : RegIdx) (v : Word) :
    (s.setReg r v).reg i = if i = r then v else s.reg i := by
  simp only [State.reg, State.setReg_regs, Vector.getElem_set, Fin.ext_iff, eq_comm]

@[simp] theorem State.setReg_reg_other (s : State) {r i : RegIdx} (v : Word) (h : i ≠ r) :
    (s.setReg r v).reg i = s.reg i := by
  simp [State.setReg_reg, h]

@[simp] theorem State.setPc_pc (s : State) (v : Word) : (s.setPc v).pc = v := State.setReg_reg_same s .pc v

@[simp] theorem State.setPc_reg_other (s : State) {i : RegIdx} (v : Word) (h : i ≠ RegIdx.pc) :
    (s.setPc v).reg i = s.reg i := State.setReg_reg_other s v h

theorem State.setReg_pc (s : State) (r : RegIdx) (v : Word) :
    (s.setReg r v).pc = if r = RegIdx.pc then v else s.pc := by
  simp only [State.pc, State.setReg_reg, eq_comm]

/-- Two register files that read the same in every cell are the same. -/
theorem State.regs_ext {s t : State} (h : ∀ r, t.reg r = s.reg r) : t.regs = s.regs := by
  apply Vector.ext
  intro i hi
  exact h ⟨i, hi⟩

theorem State.setReg_comm (s : State) {q r : RegIdx} (v w : Word) (h : q ≠ r) :
    (s.setReg q v).setReg r w = (s.setReg r w).setReg q v := by
  have h' : q.val ≠ r.val := fun e => h (Fin.ext e)
  simp [State.setReg, Vector.set_comm _ _ h']

end Sys2Proof.Machine
end

