-- ==== Sys2Proof/Laws/Step.lean ====
section
/-! SUPPORT. What fetch, execute's shared operations and a step can do, said once. -/

namespace Sys2Proof.Machine

/-! ## Fetch -/

/-- The record a fetch at PC reads. -/
def State.recordAtPc (s : State) : Record :=
  recordOf (s.mem.read s.pc.toNat) (s.mem.read (s.pc.toNat + 1)) (s.mem.read (s.pc.toNat + 2))
    (s.mem.read (s.pc.toNat + 3)) (s.mem.read (s.pc.toNat + 4)) (s.mem.read (s.pc.toNat + 5))
    (s.mem.read (s.pc.toNat + 6)) (s.mem.read (s.pc.toNat + 7))

/-- Everything a fetch can do (40_fetch_decode.md R111, R112). -/
theorem State.fetch_eq (s : State) :
    s.fetch = if s.pc.toNat + 8 ≤ s.memSize.toNat then some ((s.setIr s.recordAtPc).setPc (s.pc + 8)) else none := by
  simp only [State.fetch, State.memRd_eq]
  by_cases h : s.pc.toNat + 8 ≤ s.memSize.toNat
  · simp only [if_pos h, Memory.readBytes, takeRecord, Nat.add_assoc, Nat.reduceAdd]
    rfl
  · simp only [if_neg h]

/-- The fetched state of a cycle that begins in `s`. -/
def State.fetched (s : State) : State := (s.latchStart.setIr s.recordAtPc).setPc (s.pc + 8)

/-- A fetch's advance of PC never wraps (10_state.md R29). -/
theorem State.pc_add_eight (s : State) (h : s.pc.toNat + 8 ≤ s.memSize.toNat) : (s.pc + 8).toNat = s.pc.toNat + 8 := by
  have := s.memSize.isLt
  have h8 : (8 : Word).toNat = 8 := rfl
  rw [BitVec.toNat_add, h8]
  omega

/-- Everything a cycle can do (60_exceptions.md R243). -/
theorem cycle_eq (s : State) :
    cycle s = if s.pc.toNat + 8 ≤ s.memSize.toNat then runFetched s.fetched
      else .next (s.latchStart.takeFault .fetchOutOfBounds) := by
  rw [cycle, State.fetch_eq, State.latchStart_pc, State.latchStart_memSize]
  by_cases h : s.pc.toNat + 8 ≤ s.memSize.toNat
  · rw [if_pos h, if_pos h]
    rfl
  · rw [if_neg h, if_neg h]

theorem step_running (s : State) (h : s.fsm = .running) : step s = cycle s := by
  simp only [step, h]

theorem step_terminal (s : State) (h : s.fsm ≠ .running) : step s = .fault .halted := by
  cases hf : s.fsm <;> simp_all [step]

/-- Everything a step that answers a next state can have done. -/
theorem step_cases {s t : State} (h : step s = .next t) :
    s.fsm = .running ∧
    (s.memSize.toNat < s.pc.toNat + 8 ∧ t = s.latchStart.takeFault .fetchOutOfBounds ∨
     s.pc.toNat + 8 ≤ s.memSize.toNat ∧
      ((∃ f, decodeRecord s.recordAtPc = .error f ∧ t = s.fetched.takeFault (kindOfDecode f)) ∨
       ∃ i u, decodeRecord s.recordAtPc = .ok i ∧ exec i s.fetched = .next u ∧ t = u.checkTerm)) := by
  by_cases hr : s.fsm = .running
  · refine ⟨hr, ?_⟩
    rw [step_running s hr, cycle_eq] at h
    split at h
    · rename_i hb
      refine .inr ⟨hb, ?_⟩
      have hir : s.fetched.ir = s.recordAtPc := rfl
      rw [runFetched, hir] at h
      split at h
      · rename_i f hf
        cases h
        exact .inl ⟨f, hf, rfl⟩
      · rename_i i hi
        split at h
        · rename_i u hu
          cases h
          exact .inr ⟨i, u, hi, hu, rfl⟩
        · cases h
        · cases h
    · cases h
      exact .inl ⟨by omega, rfl⟩
  · rw [step_terminal s hr] at h
    cases h

/-! ## The termination check -/

theorem State.checkTerm_eq (s : State) :
    s.checkTerm = if s.fsm = .running ∧ s.term = true then { s with fsm := .terminated } else s := by
  cases hf : s.fsm <;> cases ht : s.term <;> simp [State.checkTerm, hf, ht]

/-! ## Execute's shared operations -/

/-- Everything a load can do (43_load_store.md R160). -/
theorem load_eq (n : Nat) (rd : RegIdx) (a : Word) (s : State) :
    load n rd a s = .next (if a.toNat + n ≤ s.memSize.toNat
      then s.setReg rd (BitVec.ofNat 32 (leNat (s.mem.readBytes a.toNat n))) else s.takeFault .memOutOfBounds) := by
  simp only [load, effectiveAddress, State.memRd_eq]
  by_cases h : a.toNat + n ≤ s.memSize.toNat
  · simp only [if_pos h]
  · simp only [if_neg h]

theorem load_fits {n : Nat} {a : Word} {s : State} (rd : RegIdx) (h : a.toNat + n ≤ s.memSize.toNat) :
    load n rd a s = .next (s.setReg rd (BitVec.ofNat 32 (leNat (s.mem.readBytes a.toNat n)))) := by
  rw [load_eq, if_pos h]

theorem load_exceeds {n : Nat} {a : Word} {s : State} (rd : RegIdx) (h : ¬ a.toNat + n ≤ s.memSize.toNat) :
    load n rd a s = .next (s.takeFault .memOutOfBounds) := by
  rw [load_eq, if_neg h]

/-- Everything a store can do (43_load_store.md R160). -/
theorem store_eq (n : Nat) (rs : RegIdx) (a : Word) (s : State) :
    store n rs a s = .next (if a.toNat + n ≤ s.memSize.toNat
      then { s with mem := s.mem.writeBytes a.toNat (leBytes n (s.reg rs).toNat) }
      else s.takeFault .memOutOfBounds) := by
  simp only [store, effectiveAddress, State.memWr_eq, leBytes_length]
  by_cases h : a.toNat + n ≤ s.memSize.toNat
  · simp only [if_pos h]
  · simp only [if_neg h]

theorem store_fits {n : Nat} {a : Word} {s : State} (rs : RegIdx) (h : a.toNat + n ≤ s.memSize.toNat) :
    store n rs a s = .next { s with mem := s.mem.writeBytes a.toNat (leBytes n (s.reg rs).toNat) } := by
  rw [store_eq, if_pos h]

theorem store_exceeds {n : Nat} {a : Word} {s : State} (rs : RegIdx) (h : ¬ a.toNat + n ≤ s.memSize.toNat) :
    store n rs a s = .next (s.takeFault .memOutOfBounds) := by
  rw [store_eq, if_neg h]

/-- Everything JMP can do (41_jump.md R140). -/
theorem execJmp_eq (a : Word) (s : State) :
    execJmp a s = .next (if a.toNat + 8 ≤ s.memSize.toNat then s.setPc a else s.takeFault .jumpOutOfBounds) := by
  simp only [execJmp, State.inBounds, decide_eq_true_eq]
  by_cases h : a.toNat + 8 ≤ s.memSize.toNat
  · simp only [if_pos h]
  · simp only [if_neg h]

theorem execJmp_fits {a : Word} {s : State} (h : a.toNat + 8 ≤ s.memSize.toNat) : execJmp a s = .next (s.setPc a) := by
  rw [execJmp_eq, if_pos h]

theorem execJmp_exceeds {a : Word} {s : State} (h : ¬ a.toNat + 8 ≤ s.memSize.toNat) :
    execJmp a s = .next (s.takeFault .jumpOutOfBounds) := by
  rw [execJmp_eq, if_neg h]

/-- Everything an arithmetic instruction can do (44_arithmetic.md R180). -/
theorem arith_cases (op : AluOp) (rd rs : RegIdx) (src : Source) (s : State) :
    (∃ y, alu op (s.reg rs) (src.value s) = some y ∧ arith op rd rs src s = .next (s.setReg rd y)) ∨
    (alu op (s.reg rs) (src.value s) = none ∧ arith op rd rs src s = .next (s.takeFault .divideByZero)) := by
  simp only [arith]
  cases h : alu op (s.reg rs) (src.value s) with
  | none => exact .inr ⟨rfl, rfl⟩
  | some y => exact .inl ⟨y, rfl, rfl⟩

theorem arith_of_some {op : AluOp} {rs : RegIdx} {src : Source} {s : State} {y : Word} (rd : RegIdx)
    (h : alu op (s.reg rs) (src.value s) = some y) : arith op rd rs src s = .next (s.setReg rd y) := by
  rw [arith, h]

theorem arith_of_none {op : AluOp} {rs : RegIdx} {src : Source} {s : State} (rd : RegIdx)
    (h : alu op (s.reg rs) (src.value s) = none) : arith op rd rs src s = .next (s.takeFault .divideByZero) := by
  rw [arith, h]

theorem alu_divu_of_ne {a b : Word} (h : b ≠ 0) : alu .divu a b = some (BitVec.ofNat 32 (a.toNat / b.toNat)) := if_neg h

theorem alu_divs_of_ne {a b : Word} (h : b ≠ 0) : alu .divs a b = some (BitVec.ofInt 32 (a.toInt.tdiv b.toInt)) :=
  if_neg h

/-! The unit's exact arithmetic narrowed to 32 bits is the arithmetic of words. -/

theorem alu_add (a b : Word) : alu .add a b = some (a + b) := by
  simp only [alu, BitVec.ofNat_add, BitVec.ofNat_toNat, BitVec.setWidth_eq]

theorem alu_sub (a b : Word) : alu .sub a b = some (a - b) := by
  simp only [alu, Option.some.injEq]
  apply BitVec.eq_of_toInt_eq
  rw [BitVec.toInt_ofInt, BitVec.toInt_sub, BitVec.toInt_eq_toNat_bmod, BitVec.toInt_eq_toNat_bmod, Int.bmod_sub_bmod,
    Int.sub_bmod_bmod]

theorem alu_mul (a b : Word) : alu .mul a b = some (a * b) := by
  simp only [alu, BitVec.ofNat_mul, BitVec.ofNat_toNat, BitVec.setWidth_eq]

theorem alu_divu (a b : Word) (h : b ≠ 0) : alu .divu a b = some (a / b) := by
  rw [alu_divu_of_ne h, ← BitVec.toNat_udiv, BitVec.ofNat_toNat, BitVec.setWidth_eq]

theorem alu_divs (a b : Word) (h : b ≠ 0) : alu .divs a b = some (a.sdiv b) := by
  rw [alu_divs_of_ne h]
  congr 1
  apply BitVec.eq_of_toInt_eq
  rw [BitVec.toInt_ofInt, BitVec.toInt_sdiv]

theorem alu_divu_zero (a : Word) : alu .divu a 0 = none := rfl

theorem alu_divs_zero (a : Word) : alu .divs a 0 = none := rfl

/-- Everything TRP can do (45_trap.md R212, R223). -/
theorem execTrp_cases (code : Word) (s : State) :
    (code = 0 ∧ execTrp code s = trapTerminate s) ∨ (code = 1 ∧ execTrp code s = trapWriteInt s) ∨
    (code = 2 ∧ execTrp code s = trapReadInt s) ∨ (code = 3 ∧ execTrp code s = trapWriteChar s) ∨
    (code = 4 ∧ execTrp code s = trapReadChar s) ∨ (code = 98 ∧ execTrp code s = trapDump s) ∨
    (code ∉ [0, 1, 2, 3, 4, 98] ∧ execTrp code s = .next (s.takeFault .invalidTrapCode)) := by
  have key : ∀ n : Nat, n < 2 ^ 32 → code.toNat = n → code = BitVec.ofNat 32 n := fun n _ h => by
    rw [← h]
    simp
  unfold execTrp
  split
  · rename_i h; exact .inl ⟨key 0 (by omega) h, rfl⟩
  · rename_i h; exact .inr (.inl ⟨key 1 (by omega) h, rfl⟩)
  · rename_i h; exact .inr (.inr (.inl ⟨key 2 (by omega) h, rfl⟩))
  · rename_i h; exact .inr (.inr (.inr (.inl ⟨key 3 (by omega) h, rfl⟩)))
  · rename_i h; exact .inr (.inr (.inr (.inr (.inl ⟨key 4 (by omega) h, rfl⟩))))
  · rename_i h; exact .inr (.inr (.inr (.inr (.inr (.inl ⟨key 98 (by omega) h, rfl⟩)))))
  · rename_i h0 h1 h2 h3 h4 h98
    refine .inr (.inr (.inr (.inr (.inr (.inr ⟨?_, rfl⟩)))))
    simp only [List.mem_cons, List.not_mem_nil, or_false, not_or]
    exact ⟨fun h => h0 (by rw [h]; rfl), fun h => h1 (by rw [h]; rfl), fun h => h2 (by rw [h]; rfl),
      fun h => h3 (by rw [h]; rfl), fun h => h4 (by rw [h]; rfl), fun h => h98 (by rw [h]; rfl)⟩

/-! ## Where execute stops -/

theorem trapReadInt_fault {s : State} {f : Fault} :
    trapReadInt s = .fault f ↔ f = .inputHold ∧ s.input.ended = false ∧ 0x0A#8 ∉ s.input.pending := by
  have key := s.input.takeLine_eq_none
  rw [trapReadInt]
  cases h : s.input.takeLine with
  | none =>
    rw [h] at key
    have := key.mp rfl
    simp only [Host.Outcome.fault.injEq, this, not_false_eq_true, and_self, and_true, eq_comm]
  | some p =>
    rw [h] at key
    simp only [reduceCtorEq, false_iff] at key
    have hp : ¬(f = .inputHold ∧ s.input.ended = false ∧ 0x0A#8 ∉ s.input.pending) := fun hf => key ⟨hf.2.2, hf.2.1⟩
    simp only [hp, iff_false]
    cases parseInt p.1 <;> simp

theorem trapReadChar_fault {s : State} {f : Fault} :
    trapReadChar s = .fault f ↔ f = .inputHold ∧ s.input.ended = false ∧ s.input.pending = [] := by
  rw [trapReadChar, HostInput.takeChar]
  cases h : s.input.pending <;> cases he : s.input.ended <;> simp [eq_comm]

/-- Execute stops in one place only: a TRP 2 or TRP 4 whose input is not there yet (45_trap.md R222). -/
theorem exec_fault_iff {i : Instr} {s : State} {f : Fault} :
    exec i s = .fault f ↔ f = .inputHold ∧ s.input.ended = false ∧
      (i = .trp 2 ∧ 0x0A#8 ∉ s.input.pending ∨ i = .trp 4 ∧ s.input.pending = []) := by
  cases i
  case trp code =>
    rw [exec]
    rcases execTrp_cases code s with h | h | h | h | h | h | h <;> rw [h.2]
    · simp [trapTerminate, h.1]
    · simp [trapWriteInt, h.1]
    · rw [trapReadInt_fault]
      simp [h.1]
    · simp [trapWriteChar, h.1]
    · rw [trapReadChar_fault]
      simp [h.1]
    · simp [trapDump, h.1]
    · have := h.1
      simp only [List.mem_cons, not_or] at this
      simp only [reduceCtorEq, Instr.trp.injEq, this, false_and, or_self, and_false]
  all_goals simp [exec, execJmp_eq, execMov, execMovi, execLda, execLdr, execLdb, load_eq, execStr, execStb, store_eq,
    execAdd, execAddi, execSub, execSubi, execMul, execMuli, execDiv, execSdiv, execDivi, arith]
  all_goals (split <;> simp)

/-- Every instruction has a meaning: execute refuses nothing. -/
theorem exec_ne_refused (i : Instr) (s : State) (f : Refusal) : exec i s ≠ .refused f := by
  cases i
  case trp code =>
    rw [exec]
    rcases execTrp_cases code s with h | h | h | h | h | h | h <;> rw [h.2]
    · simp [trapTerminate]
    · simp [trapWriteInt]
    · rw [trapReadInt]
      split
      · simp
      · split <;> simp
    · simp [trapWriteChar]
    · rw [trapReadChar]
      split <;> simp
    · simp [trapDump]
    · simp
  all_goals simp [exec, execJmp_eq, execMov, execMovi, execLda, execLdr, execLdb, load_eq, execStr, execStb, store_eq,
    execAdd, execAddi, execSub, execSubi, execMul, execMuli, execDiv, execSdiv, execDivi, arith]
  all_goals (split <;> simp)

/-- No step refuses. -/
theorem step_ne_refused (s : State) (f : Refusal) : step s ≠ .refused f := by
  by_cases hr : s.fsm = .running
  · rw [step_running s hr, cycle_eq, runFetched]
    split
    · split
      · simp
      · split
        · simp
        · simp
        · rename_i h
          exact absurd h (exec_ne_refused _ _ _)
    · simp
  · rw [step_terminal s hr]
    simp

/-- A step of a running machine stops only where the decoded instruction holds. -/
theorem step_fault_iff {s : State} {f : Fault} (hr : s.fsm = .running) :
    step s = .fault f ↔ s.pc.toNat + 8 ≤ s.memSize.toNat ∧
      ∃ i, decodeRecord s.recordAtPc = .ok i ∧ exec i s.fetched = .fault f := by
  have hir : s.fetched.ir = s.recordAtPc := rfl
  rw [step_running s hr, cycle_eq, runFetched, hir]
  by_cases hb : s.pc.toNat + 8 ≤ s.memSize.toNat
  · rw [if_pos hb]
    cases hd : decodeRecord s.recordAtPc with
    | error e => simp
    | ok i =>
      simp only [hb, true_and, Except.ok.injEq, exists_eq_left']
      cases he : exec i s.fetched <;> simp
  · rw [if_neg hb]
    simp [hb]

end Sys2Proof.Machine
end

