-- ==== Sys2Proof/Laws/Exec.lean ====
section
/-! SUPPORT. What execute can do, said once for all instructions. -/

namespace Sys2Proof.Machine

/-- The effects execute can have when it answers a next state. -/
inductive ExecEffect (i : Instr) (s : State) : State → Prop
  /-- One register is written (10_state.md R25). -/
  | writes (rd : RegIdx) (v : Word) (hi : writtenReg i = some rd) (ht : notTrap i) : ExecEffect i s (s.setReg rd v)
  /-- Bytes in bounds are stored (43_load_store.md R163, R165). -/
  | stores (rs : RegIdx) (a : Word) (n : Nat)
      (hi : i = .str rs a ∧ n = 4 ∨ i = .stb rs a ∧ n = 1) (hb : a.toNat + n ≤ s.memSize.toNat) :
      ExecEffect i s { s with mem := s.mem.writeBytes a.toNat (leBytes n (s.reg rs).toNat) }
  /-- A fault of execute is taken (60_exceptions.md R244). -/
  | faults (k : FaultKind) (hk : k ≠ .fetchOutOfBounds) : ExecEffect i s (s.takeFault k)
  /-- TRP 0 (45_trap.md R213). -/
  | terminates (hi : i = .trp 0) : ExecEffect i s s.raiseTerm
  /-- TRP 1, 3 and 98 (45_trap.md R214, R217, R219). -/
  | emits (bs : List Byte) (hi : i = .trp 1 ∨ i = .trp 3 ∨ i = .trp 98) : ExecEffect i s (s.emit bs)
  /-- TRP 2 and TRP 4 with input (45_trap.md R216, R218). -/
  | reads (h : HostInput) (v : Word) (hi : i = .trp 2 ∨ i = .trp 4)
      (hh : h.consumed ++ h.pending = s.input.consumed ++ s.input.pending ∧
        s.input.consumed <+: h.consumed ∧ h.ended = s.input.ended) :
      ExecEffect i s ((s.setInput h).setReg .r3 v)
  /-- TRP 2 with a line that does not parse (60_exceptions.md R247). -/
  | aborts (h : HostInput) (hi : i = .trp 2)
      (hh : h.consumed ++ h.pending = s.input.consumed ++ s.input.pending ∧
        s.input.consumed <+: h.consumed ∧ h.ended = s.input.ended) :
      ExecEffect i s (s.setInput h).hostAbort
  /-- TRP 4 at the end of input (45_trap.md R218). -/
  | draws (hi : i = .trp 4) : ExecEffect i s (s.drawEofValue.2.setReg .r3 s.drawEofValue.1)

theorem load_effect {i : Instr} {s t : State} {n : Nat} {rd : RegIdx} {a : Word} (h : load n rd a s = .next t)
    (hi : writtenReg i = some rd) (ht : notTrap i) : ExecEffect i s t := by
  rw [load_eq] at h
  cases h
  split
  · exact .writes rd _ hi ht
  · exact .faults _ (by decide)

theorem store_effect {i : Instr} {s t : State} {n : Nat} {rs : RegIdx} {a : Word} (h : store n rs a s = .next t)
    (hi : i = .str rs a ∧ n = 4 ∨ i = .stb rs a ∧ n = 1) : ExecEffect i s t := by
  rw [store_eq] at h
  cases h
  split
  · rename_i hb
    exact .stores rs a n hi hb
  · exact .faults _ (by decide)

theorem arith_effect {i : Instr} {s t : State} {op : AluOp} {rd rs : RegIdx} {src : Source}
    (h : arith op rd rs src s = .next t) (hi : writtenReg i = some rd) (ht : notTrap i) : ExecEffect i s t := by
  rcases arith_cases op rd rs src s with ⟨y, -, e⟩ | ⟨-, e⟩ <;> rw [e] at h <;> cases h
  · exact .writes rd y hi ht
  · exact .faults _ (by decide)

theorem trap_effect {code : Word} {s t : State} (h : execTrp code s = .next t) : ExecEffect (.trp code) s t := by
  rcases execTrp_cases code s with ⟨rfl, e⟩ | ⟨rfl, e⟩ | ⟨rfl, e⟩ | ⟨rfl, e⟩ | ⟨rfl, e⟩ | ⟨rfl, e⟩ | ⟨-, e⟩ <;>
    rw [e] at h
  · cases h
    exact .terminates rfl
  · cases h
    exact .emits _ (.inl rfl)
  · rw [trapReadInt] at h
    split at h
    · cases h
    · rename_i line rest hl
      have hh := HostInput.takeLine_some hl
      split at h <;> cases h
      · exact .reads rest _ (.inl rfl) hh
      · exact .aborts rest rfl hh
  · cases h
    exact .emits _ (.inr (.inl rfl))
  · rw [trapReadChar, HostInput.takeChar] at h
    split at h
    · cases h
    · rename_i b rest hc
      split at hc
      · rename_i b' bs hp
        cases hc
        cases h
        exact .reads _ _ (.inr rfl) (by simp [hp])
      · split at hc <;> cases hc
    · cases h
      exact .draws rfl
  · cases h
    exact .emits _ (.inr (.inr rfl))
  · cases h
    exact .faults _ (by decide)

/-- Everything an execute that answers a next state can have done. -/
theorem exec_effect {i : Instr} {s t : State} (h : exec i s = .next t) : ExecEffect i s t := by
  cases i with
  | jmp a =>
    rw [exec, execJmp_eq] at h
    cases h
    split
    · exact .writes .pc a rfl trivial
    · exact .faults _ (by decide)
  | mov rd rs => cases h; exact .writes rd _ rfl trivial
  | movi rd imm => cases h; exact .writes rd _ rfl trivial
  | lda rd a => exact load_effect h rfl trivial
  | str rs a => exact store_effect h (.inl ⟨rfl, rfl⟩)
  | ldr rd a => exact load_effect h rfl trivial
  | stb rs a => exact store_effect h (.inr ⟨rfl, rfl⟩)
  | ldb rd a => exact load_effect h rfl trivial
  | add rd a b => exact arith_effect (op := .add) (src := .reg b) h rfl trivial
  | addi rd a b => exact arith_effect (op := .add) (src := .imm b) h rfl trivial
  | sub rd a b => exact arith_effect (op := .sub) (src := .reg b) h rfl trivial
  | subi rd a b => exact arith_effect (op := .sub) (src := .imm b) h rfl trivial
  | mul rd a b => exact arith_effect (op := .mul) (src := .reg b) h rfl trivial
  | muli rd a b => exact arith_effect (op := .mul) (src := .imm b) h rfl trivial
  | div rd a b => exact arith_effect h rfl trivial
  | sdiv rd a b => exact arith_effect h rfl trivial
  | divi rd a b => exact arith_effect h rfl trivial
  | trp code => exact trap_effect h

end Sys2Proof.Machine
end

