-- ==== Sys2Proof/Laws/PerInstr.lean ====
section
/-! SUPPORT. Laws of the instructions as syntax, one lemma for each constructor. -/

namespace Sys2Proof

theorem slotValid_regByte (r : RegIdx) : slotValid (regByte r) = true := by
  have := r.isLt
  simp only [slotValid, regByte_toNat, decide_eq_true_eq]
  omega

namespace Laws.EncodeWellFormed

/-- The record an instruction encodes to passes the decoder's check (30_encoding.md R87, R88). -/
def Statement (i : Instr) : Prop := (encodeRecord i).wellFormed arityClass = true

theorem jmp (t : Word) : Statement (.jmp t) := rfl

theorem mov (rd rs : RegIdx) : Statement (.mov rd rs) := by
  simp [Statement, encodeRecord, Record.wellFormed, arityClass, Record.slotsValid, slotValid_regByte]

theorem movi (rd : RegIdx) (imm : Word) : Statement (.movi rd imm) := by
  simp [Statement, encodeRecord, Record.wellFormed, arityClass, Record.slotsValid, slotValid_regByte]

theorem lda (rd : RegIdx) (a : Word) : Statement (.lda rd a) := by
  simp [Statement, encodeRecord, Record.wellFormed, arityClass, Record.slotsValid, slotValid_regByte]

theorem str (rs : RegIdx) (a : Word) : Statement (.str rs a) := by
  simp [Statement, encodeRecord, Record.wellFormed, arityClass, Record.slotsValid, slotValid_regByte]

theorem ldr (rd : RegIdx) (a : Word) : Statement (.ldr rd a) := by
  simp [Statement, encodeRecord, Record.wellFormed, arityClass, Record.slotsValid, slotValid_regByte]

theorem stb (rs : RegIdx) (a : Word) : Statement (.stb rs a) := by
  simp [Statement, encodeRecord, Record.wellFormed, arityClass, Record.slotsValid, slotValid_regByte]

theorem ldb (rd : RegIdx) (a : Word) : Statement (.ldb rd a) := by
  simp [Statement, encodeRecord, Record.wellFormed, arityClass, Record.slotsValid, slotValid_regByte]

theorem add (rd r1 r2 : RegIdx) : Statement (.add rd r1 r2) := by
  simp [Statement, encodeRecord, Record.wellFormed, arityClass, Record.slotsValid, slotValid_regByte]

theorem addi (rd rs : RegIdx) (imm : Word) : Statement (.addi rd rs imm) := by
  simp [Statement, encodeRecord, Record.wellFormed, arityClass, Record.slotsValid, slotValid_regByte]

theorem sub (rd r1 r2 : RegIdx) : Statement (.sub rd r1 r2) := by
  simp [Statement, encodeRecord, Record.wellFormed, arityClass, Record.slotsValid, slotValid_regByte]

theorem subi (rd rs : RegIdx) (imm : Word) : Statement (.subi rd rs imm) := by
  simp [Statement, encodeRecord, Record.wellFormed, arityClass, Record.slotsValid, slotValid_regByte]

theorem mul (rd r1 r2 : RegIdx) : Statement (.mul rd r1 r2) := by
  simp [Statement, encodeRecord, Record.wellFormed, arityClass, Record.slotsValid, slotValid_regByte]

theorem muli (rd rs : RegIdx) (imm : Word) : Statement (.muli rd rs imm) := by
  simp [Statement, encodeRecord, Record.wellFormed, arityClass, Record.slotsValid, slotValid_regByte]

theorem div (rd r1 r2 : RegIdx) : Statement (.div rd r1 r2) := by
  simp [Statement, encodeRecord, Record.wellFormed, arityClass, Record.slotsValid, slotValid_regByte]

theorem sdiv (rd r1 r2 : RegIdx) : Statement (.sdiv rd r1 r2) := by
  simp [Statement, encodeRecord, Record.wellFormed, arityClass, Record.slotsValid, slotValid_regByte]

theorem divi (rd rs : RegIdx) (imm : Word) : Statement (.divi rd rs imm) := by
  simp [Statement, encodeRecord, Record.wellFormed, arityClass, Record.slotsValid, slotValid_regByte]

theorem trp (c : Word) : Statement (.trp c) := rfl

end Laws.EncodeWellFormed

end Sys2Proof
end

