-- ==== Sys2Proof/Laws/Text.lean ====
section
/-! SUPPORT. Decimal text: what the numerals hold, and that parsing a numeral gives its value. -/

namespace Sys2Proof.Machine

theorem digitByte_toNat {d : Nat} (h : d < 10) : (digitByte d).toNat = 0x30 + d := by
  rw [digitByte, BitVec.toNat_ofNat]
  omega

theorem isDigit_iff (b : Byte) : isDigit b = true ↔ 0x30 ≤ b.toNat ∧ b.toNat ≤ 0x39 := by
  simp [isDigit]

theorem digitByte_isDigit {d : Nat} (h : d < 10) : 0x30 ≤ (digitByte d).toNat ∧ (digitByte d).toNat ≤ 0x39 := by
  rw [digitByte_toNat h]
  omega

/-- Appending a digit multiplies the value by ten and adds the digit. -/
theorem digitsValue_append (bs : List Byte) (b : Byte) :
    digitsValue (bs ++ [b]) = 10 * digitsValue bs + (b.toNat - 0x30) := by
  simp [digitsValue, List.foldl_append]

theorem decimalDigits_ne_nil (fuel n : Nat) : decimalDigits fuel n ≠ [] := by
  cases fuel with
  | zero => simp [decimalDigits]
  | succ fuel =>
    rw [decimalDigits]
    split <;> simp

theorem decimalDigits_all (fuel n : Nat) : ∀ b ∈ decimalDigits fuel n, 0x30 ≤ b.toNat ∧ b.toNat ≤ 0x39 := by
  induction fuel generalizing n with
  | zero =>
    intro b hb
    rw [decimalDigits, List.mem_singleton] at hb
    subst hb
    exact digitByte_isDigit (Nat.mod_lt _ (by decide))
  | succ fuel ih =>
    intro b hb
    rw [decimalDigits] at hb
    split at hb
    · rename_i h
      rw [List.mem_singleton] at hb
      subst hb
      exact digitByte_isDigit h
    · rcases List.mem_append.mp hb with hb | hb
      · exact ih _ b hb
      · rw [List.mem_singleton] at hb
        subst hb
        exact digitByte_isDigit (Nat.mod_lt _ (by decide))

/-- The digits of a number that the fuel covers have its value. -/
theorem decimalDigits_value (fuel n : Nat) (h : n < 10 ^ (fuel + 1)) : digitsValue (decimalDigits fuel n) = n := by
  induction fuel generalizing n with
  | zero =>
    have hn : n < 10 := by simpa using h
    simp only [decimalDigits, digitsValue, List.foldl_cons, List.foldl_nil,
      digitByte_toNat (Nat.mod_lt n (by decide : 10 > 0))]
    omega
  | succ fuel ih =>
    rw [decimalDigits]
    split
    · rename_i hn
      simp only [digitsValue, List.foldl_cons, List.foldl_nil, digitByte_toNat hn]
      omega
    · have hd : n / 10 < 10 ^ (fuel + 1) := by
        rw [Nat.pow_succ] at h
        omega
      rw [digitsValue_append, ih _ hd, digitByte_toNat (Nat.mod_lt n (by decide : 10 > 0))]
      omega

/-- The first digit of a number above zero that the fuel covers is not `0`. -/
theorem decimalDigits_head (fuel n : Nat) (h : n < 10 ^ (fuel + 1)) (hn : 0 < n) :
    (decimalDigits fuel n).head? ≠ some 0x30#8 := by
  have key : ∀ d, 0 < d → d < 10 → digitByte d ≠ 0x30#8 := fun d h0 h1 e => by
    have := congrArg BitVec.toNat e
    rw [digitByte_toNat h1] at this
    simp at this
    omega
  induction fuel generalizing n with
  | zero =>
    have hn' : n < 10 := by simpa using h
    simp only [decimalDigits, List.head?_cons, ne_eq, Option.some.injEq]
    rw [Nat.mod_eq_of_lt hn']
    exact key n hn hn'
  | succ fuel ih =>
    rw [decimalDigits]
    split
    · rename_i hn'
      simp only [List.head?_cons, ne_eq, Option.some.injEq]
      exact key n hn hn'
    · have hd : n / 10 < 10 ^ (fuel + 1) := by
        rw [Nat.pow_succ] at h
        omega
      rw [List.head?_append_of_ne_nil _ (decimalDigits_ne_nil _ _)]
      exact ih _ hd (by omega)

/-- A string of digits, at least one, has its value as a numeral. -/
theorem unsignedNumeral_digits {bs : List Byte} (h : bs ≠ []) (hd : ∀ b ∈ bs, 0x30 ≤ b.toNat ∧ b.toNat ≤ 0x39) :
    unsignedNumeral bs = some (digitsValue bs) := by
  rw [unsignedNumeral, if_pos ⟨h, List.all_eq_true.mpr fun b hb => (isDigit_iff b).mpr (hd b hb)⟩]

/-- A string of digits, at least one, parses as its value when in range (45_trap.md R215). -/
theorem signedNumeral_digits {bs : List Byte} (h : bs ≠ []) (hd : ∀ b ∈ bs, 0x30 ≤ b.toNat ∧ b.toNat ≤ 0x39) :
    signedNumeral bs = some (digitsValue bs : Int) := by
  cases bs with
  | nil => exact absurd rfl h
  | cons b bs =>
    have hb : b ≠ 0x2D := by
      rintro rfl
      have := hd _ (List.mem_cons_self ..)
      simp at this
    rw [signedNumeral, if_neg hb, unsignedNumeral_digits h hd]
    rfl

/-- A minus sign and a string of digits parse as the negated value (45_trap.md R215). -/
theorem signedNumeral_minus {bs : List Byte} (h : bs ≠ []) (hd : ∀ b ∈ bs, 0x30 ≤ b.toNat ∧ b.toNat ≤ 0x39) :
    signedNumeral (0x2D :: bs) = some (-(digitsValue bs : Int)) := by
  rw [signedNumeral, if_pos rfl, unsignedNumeral_digits h hd]
  rfl

end Sys2Proof.Machine
end

