-- ==== Sys2Proof/Tests/Slice0.lean ====
section
/-! SUPPORT. The model's own tests: the well-formedness smoke test, decoding, one step of each instruction, and for each statement a state that meets its hypotheses. Expected results are the vectors of 95_test_vectors.md, named by their ids. -/

namespace Sys2Proof.Tests

open Sys2Proof.Machine Sys2Proof.Claims

/-! ## Well-formedness -/

theorem test_wellFormed_accepts : Record.wellFormed arityClass ⟨0x12, 0x15, 0x15, 0x15, 0⟩ = true := by decide
theorem test_wellFormed_refuses_opcode : Record.wellFormed arityClass ⟨0x20, 0, 0, 0, 0⟩ = false := by decide
theorem test_wellFormed_refuses_op1 : Record.wellFormed arityClass ⟨0x0A, 0x16, 0, 0, 256⟩ = false := by decide
theorem test_wellFormed_refuses_op2 : Record.wellFormed arityClass ⟨0x07, 1, 0x16, 0, 0⟩ = false := by decide
theorem test_wellFormed_refuses_op3 : Record.wellFormed arityClass ⟨0x12, 0, 0, 0x16, 0⟩ = false := by decide

/-! ## Decoding: records written out in 95_test_vectors.md and the instruction rules -/

theorem test_decode_jmp : decode [0x01, 0xFF, 0xFF, 0xFF, 0x10, 0x00, 0x00, 0x00] = .ok (.jmp 16, []) := rfl
theorem test_decode_mov : decode [0x07, 0x01, 0x02, 0xC8, 0x00, 0x00, 0x00, 0x00] = .ok (.mov 1 2, []) := rfl
theorem test_decode_movi : decode [0x08, 0x15, 0xFF, 0xFF, 0x05, 0x00, 0x00, 0x00] = .ok (.movi .hp 5, []) := rfl
theorem test_decode_lda : decode [0x09, 0x06, 0x00, 0x00, 0x00, 0x02, 0x00, 0x00] = .ok (.lda 6 0x200, []) := rfl
theorem test_decode_str : decode [0x0A, 0x04, 0x00, 0x00, 0x00, 0x02, 0x00, 0x00] = .ok (.str 4 0x200, []) := rfl
theorem test_decode_ldr : decode [0x0B, 0x00, 0x10, 0xFF, 0x00, 0x01, 0x00, 0x00] = .ok (.ldr 0 256, []) := rfl
theorem test_decode_stb : decode [0x0C, 0x04, 0x00, 0x00, 0x00, 0x03, 0x00, 0x00] = .ok (.stb 4 0x300, []) := rfl
theorem test_decode_ldb : decode [0x0D, 0x01, 0x00, 0x00, 0xFF, 0xFF, 0xFF, 0xFF] = .ok (.ldb 1 0xFFFFFFFF, []) := rfl
theorem test_decode_add : decode [0x12, 0x0F, 0x00, 0x01, 0xFF, 0xFF, 0xFF, 0xFF] = .ok (.add 15 0 1, []) := rfl
theorem test_decode_addi : decode [0x13, 0x00, 0x00, 0xFF, 0x01, 0x00, 0x00, 0x00] = .ok (.addi 0 0 1, []) := rfl
theorem test_decode_sub : decode [0x14, 0x05, 0x00, 0x01, 0x00, 0x00, 0x00, 0x00] = .ok (.sub 5 0 1, []) := rfl
theorem test_decode_subi : decode [0x15, 0x06, 0x00, 0x00, 0xAD, 0x01, 0x00, 0x00] = .ok (.subi 6 0 429, []) := rfl
theorem test_decode_mul : decode [0x16, 0x04, 0x02, 0x02, 0x00, 0x00, 0x00, 0x00] = .ok (.mul 4 2 2, []) := rfl
theorem test_decode_muli : decode [0x17, 0x07, 0x00, 0x00, 0x03, 0x00, 0x00, 0x00] = .ok (.muli 7 0 3, []) := rfl
theorem test_decode_div : decode [0x18, 0x03, 0x01, 0x00, 0x00, 0x00, 0x00, 0x00] = .ok (.div 3 1 0, []) := rfl
theorem test_decode_sdiv : decode [0x19, 0x0B, 0x15, 0x0A, 0x00, 0x00, 0x00, 0x00] = .ok (.sdiv 11 .hp 10, []) := rfl
theorem test_decode_divi : decode [0x1A, 0x08, 0x07, 0x00, 0x05, 0x00, 0x00, 0x00] = .ok (.divi 8 7 5, []) := rfl
theorem test_decode_trp : decode [0x1F, 0x00, 0x00, 0x00, 0x62, 0x00, 0x00, 0x00] = .ok (.trp 98, []) := rfl

/-- V2.14: the opcode is checked before the slots. -/
theorem test_decode_refuses_opcode :
    decode [0x00, 0x16, 0x16, 0x16, 0x00, 0x00, 0x00, 0x00] = .error (.fault .invalidOpcode) := rfl
/-- L1.5. -/
theorem test_decode_refuses_operand :
    decode [0x12, 0x00, 0x00, 0x16, 0x00, 0x00, 0x00, 0x00] = .error (.fault .invalidOperand) := rfl
theorem test_decode_refuses_truncated : decode [0x1F, 0x00, 0x00, 0x00, 0x00, 0x00, 0x00] = .error .truncated := rfl

/-- The word view of L1.3, which is JMP 0xDEADBEEF. -/
theorem test_decodeTableWord : decodeTableWord 64 0xDEADBEEF08040201 = some (.jmp 0xDEADBEEF) := by decide
theorem test_decodeTableWord_short : decodeTableWord 8 0xFFFF1F = some (.trp 0) := by decide

/-! ## One step of each instruction -/

/-- A machine right after reset but for PC and the bytes from PC up. -/
def machineAt (pc : Word) (bytes : List Byte) : State := (State.reset.setPc pc).placeAtPc bytes

/-- The next state an outcome holds, if it is one. -/
def nextOf (o : Host.Outcome State Fault Refusal) : Option State :=
  match o with
  | .next t => some t
  | .fault _ => none
  | .refused _ => none

/-- The stop an outcome holds, if it is one. -/
def stopOf (o : Host.Outcome State Fault Refusal) : Option Fault :=
  match o with
  | .next _ => none
  | .fault f => some f
  | .refused _ => none

/-- What a test looks at after one step. -/
def after {α : Type} (s : State) (look : State → α) : Option α := (nextOf (step s)).map look

/-- V3.1. -/
theorem test_jmp : after (machineAt 4 (encode (.jmp 131064))) State.pc = some 131064 := by decide
/-- V3.2: the fault address is the JMP's, PC is past it. -/
theorem test_jmp_out_of_bounds : after (machineAt 4 (encode (.jmp 131065)))
    (fun t => (t.fsm, t.faultKind, t.faultAddr, t.pc)) = some (.faulted, some .jumpOutOfBounds, 4, 12) := by decide
/-- V4.2. -/
theorem test_mov_from_pc : after (machineAt 20 (encode (.mov 0 .pc))) (fun t => (t.reg 0, t.pc)) = some (28, 28) := by
  decide
/-- V4.3, first step. -/
theorem test_mov_to_pc : after ((machineAt 4 (encode (.mov .pc 0))).setReg 0 131065) (fun t => (t.fsm, t.pc)) =
    some (.running, 131065) := by decide
/-- V4.4. -/
theorem test_movi : after (machineAt 4 (encode (.movi 5 0xFFFFFFFF))) (fun t => t.reg 5) = some 0xFFFFFFFF := by decide
/-- 43_load_store.md R162. -/
theorem test_lda : after (machineAt 4 (encode (.lda 2 12) ++ [0x78, 0x56, 0x34, 0x12])) (fun t => t.reg 2) =
    some 0x12345678 := by decide
/-- V5.1. -/
theorem test_str : after ((machineAt 4 (encode (.str 4 0x200))).setReg 4 0x11223344)
    (fun t => t.mem.readBytes 0x1FF 6) = some [0x00, 0x44, 0x33, 0x22, 0x11, 0x00] := by decide
/-- V5.6: no partial write. -/
theorem test_str_out_of_bounds : after ((machineAt 4 (encode (.str 1 131070))).setReg 1 0xAABBCCDD)
    (fun t => (t.faultKind, t.mem.readBytes 131070 2)) = some (some .memOutOfBounds, [0x00, 0x00]) := by decide
/-- V5.15: a load into PC. -/
theorem test_ldr_to_pc : after (machineAt 4 (encode (.ldr .pc 12) ++ [0x28])) State.pc = some 40 := by decide
/-- V5.10: the bound does not wrap. -/
theorem test_ldr_no_wrap : after (machineAt 4 (encode (.ldr 1 0xFFFFFFFE))) (·.faultKind) =
    some (some .memOutOfBounds) := by decide
/-- V5.7. -/
theorem test_stb_last_byte : after ((machineAt 4 (encode (.stb 1 131071))).setReg 1 0x15A)
    (fun t => (t.fsm, t.mem.read 131071)) = some (.running, 0x5A) := by decide
/-- V5.11. -/
theorem test_ldb_zero_extends : after (machineAt 4 (encode (.ldb 1 12) ++ [0x80])) (fun t => t.reg 1) =
    some 0x00000080 := by decide
/-- L1.7. -/
theorem test_add : after (((machineAt 4 (encode (.add 2 1 0))).setReg 1 34).setReg 0 51) (fun t => t.reg 2) =
    some 85 := by decide
/-- V6.4. -/
theorem test_addi : after ((machineAt 4 (encode (.addi 1 1 0xFFFFFFFD))).setReg 1 10) (fun t => t.reg 1) =
    some 7 := by decide
/-- L1.7: the order of the operands. -/
theorem test_sub : after (((machineAt 4 (encode (.sub 2 1 0))).setReg 1 34).setReg 0 51) (fun t => t.reg 2) =
    some 0xFFFFFFEF := by decide
/-- V6.8. -/
theorem test_subi : after (machineAt 4 (encode (.subi 8 7 1))) (fun t => t.reg 8) = some 0xFFFFFFFF := by decide
/-- V6.11. -/
theorem test_mul : after (((machineAt 4 (encode (.mul 2 1 0))).setReg 1 0xFFFFFFFD).setReg 0 5) (fun t => t.reg 2) =
    some 0xFFFFFFF1 := by decide
/-- V6.13. -/
theorem test_muli : after ((machineAt 4 (encode (.muli 3 2 0xFFFFFFFF))).setReg 2 5) (fun t => t.reg 3) =
    some 0xFFFFFFFB := by decide
/-- V6.14. -/
theorem test_div : after (((machineAt 4 (encode (.div 2 1 0))).setReg 1 0xFFFFFFFF).setReg 0 2) (fun t => t.reg 2) =
    some 0x7FFFFFFF := by decide
/-- L1.8. -/
theorem test_div_by_zero : after (((machineAt 4 (encode (.div 2 1 0))).setReg 1 7).setReg 2 99)
    (fun t => (t.reg 2, t.faultKind, t.faultAddr)) = some (99, some .divideByZero, 4) := by decide
/-- V6.20. -/
theorem test_sdiv : after (((machineAt 4 (encode (.sdiv 2 1 0))).setReg 1 7).setReg 0 0xFFFFFFFE) (fun t => t.reg 2) =
    some 0xFFFFFFFD := by decide
/-- V6.23. -/
theorem test_sdiv_overflow : after (((machineAt 4 (encode (.sdiv 2 1 0))).setReg 1 0x80000000).setReg 0 0xFFFFFFFF)
    (fun t => (t.fsm, t.reg 2)) = some (.running, 0x80000000) := by decide
/-- V6.28. -/
theorem test_divi : after ((machineAt 4 (encode (.divi 2 1 7))).setReg 1 100) (fun t => t.reg 2) = some 14 := by decide
/-- V6.31. -/
theorem test_divi_by_zero : after (((machineAt 4 (encode (.divi 2 1 0))).setReg 1 9).setReg 2 99)
    (fun t => (t.reg 2, t.faultKind)) = some (99, some .divideByZero) := by decide

/-- V7.1, with stray operand bytes (V2.12). -/
theorem test_trp_terminates : after (machineAt 4 [0x1F, 0xFF, 0xFF, 0xFF]) (fun t => (t.fsm, t.term, t.pc)) =
    some (.terminated, true, 12) := by decide
/-- V7.3: "-2147483648". -/
theorem test_trp_writes_int : after ((machineAt 4 (encode (.trp 1))).setReg 3 0x80000000) (·.out) =
    some [0x2D, 0x32, 0x31, 0x34, 0x37, 0x34, 0x38, 0x33, 0x36, 0x34, 0x38] := by decide
/-- V7.8: "-5" and a newline, then more. -/
theorem test_trp_reads_int : after ((machineAt 4 (encode (.trp 2))).supply [0x2D, 0x35, 0x0A, 0x41])
    (fun t => (t.reg 3, t.input)) = some (0xFFFFFFFB, ⟨[0x41], false, [0x2D, 0x35, 0x0A]⟩) := by decide
/-- V7.12: "2147483648" is out of range. -/
theorem test_trp_aborts : after ((machineAt 4 (encode (.trp 2))).supply
      [0x32, 0x31, 0x34, 0x37, 0x34, 0x38, 0x33, 0x36, 0x34, 0x38, 0x0A])
    (fun t => (t.fsm, t.reg 3, t.pc)) = some (.aborted, 0, 12) := by decide
/-- V7.17. -/
theorem test_trp_holds : stopOf (step ((machineAt 4 (encode (.trp 2))).supply [0x37])) = some .inputHold := by decide
/-- V7.19. -/
theorem test_trp_writes_char : after ((machineAt 4 (encode (.trp 3))).setReg 3 0x10A) (·.out) = some [0x0A] := by
  decide
/-- V7.24. -/
theorem test_trp_reads_char : after ((machineAt 4 (encode (.trp 4))).supply [0xFF, 0x20])
    (fun t => (t.reg 3, t.input.pending)) = some (0xFF, [0x20]) := by decide
/-- V7.25: the machine goes on, and R3's value is left open. -/
theorem test_trp_reads_end : after (machineAt 4 (encode (.trp 4))).endInput (fun t => (t.fsm, t.pc, t.input.consumed)) =
    some (.running, 12, []) := by decide
/-- V7.26: the dump's first line and its PC line. -/
theorem test_trp_dumps : after (machineAt 4 (encode (.trp 98))) (fun t => (t.out.take 5, (t.out.drop 86).take 6)) =
    some ([0x52, 0x30, 0x09, 0x30, 0x0A], [0x50, 0x43, 0x09, 0x31, 0x32, 0x0A]) := by decide
/-- V7.29. -/
theorem test_trp_compares_whole_code : after (machineAt 4 (encode (.trp 0x100))) (·.faultKind) =
    some (some .invalidTrapCode) := by decide

/-- V1.2. -/
theorem test_fetch_bound : after (machineAt 131065 []) (fun t => (t.faultKind, t.faultAddr, t.pc)) =
    some (some .fetchOutOfBounds, 131065, 131065) := by decide
/-- V8.5. -/
theorem test_terminal_halts : stopOf (step { State.reset with fsm := .terminated }) = some .halted := by decide
/-- The host's placing of an instruction after reset. -/
theorem test_withFetchWord : after (State.reset.withFetchWord 64 0x0000000500000008) (fun t => t.reg 0) = some 5 := by
  decide
/-- V8.1: an image of one word. -/
theorem test_launch : (match launch 131072 (some [0x10, 0x00, 0x00, 0x00]) with
    | .ready s => after s (fun t => (t.faultKind, t.faultAddr, t.pc))
    | .ended _ => none
    | .refused _ => none) = some (some .invalidOpcode, 16, 24) := by decide

/-! ## Witnesses: for each statement with hypotheses, states and operands that meet them -/

/-- A machine about to run `i` at address 4. -/
def running (i : Instr) : State := machineAt 4 (encode i)

theorem fetches_movi : Fetches (running (.movi 5 7)) (.movi 5 7) := ⟨⟨rfl, by decide⟩, rfl⟩
theorem fetches_trp2 : Fetches (running (.trp 2)) (.trp 2) := ⟨⟨rfl, by decide⟩, rfl⟩
theorem fetches_trp4 : Fetches (running (.trp 4)) (.trp 4) := ⟨⟨rfl, by decide⟩, rfl⟩
theorem fetches_trp0 : Fetches (running (.trp 0)) (.trp 0) := ⟨⟨rfl, by decide⟩, rfl⟩

theorem witness_DecodedRecordReencodes :
    decodeRecord ⟨0x13, 21, 0, 0xFF, 9⟩ = .ok (.addi .hp 0 9) := rfl

theorem witness_DecoderVerdict :
    (27 : Nat) ∉ legalOpcodes ∧
    ((0x12 : Byte).toNat ∈ legalOpcodes ∧ BadSlot ⟨0x12, 0, 0, 22, 0⟩) ∧
    ((0x12 : Byte).toNat ∈ legalOpcodes ∧ ¬ BadSlot ⟨0x12, 21, 21, 21, 0⟩) :=
  ⟨by decide, ⟨by decide, .inr (.inr (by decide))⟩, by decide, by rintro (h | h | h) <;> exact absurd h.2 (by decide)⟩

theorem witness_DontCareFieldsHaveNoEffect :
    let r : Record := ⟨0x07, 1, 2, 0, 0⟩
    let r' : Record := ⟨0x07, 1, 2, 0xC8, 99⟩
    r'.opcode = r.opcode ∧ (r.opcode.toNat ∈ checksOp1 → r'.op1 = r.op1) ∧
    (r.opcode.toNat ∈ checksOp2 → r'.op2 = r.op2) ∧ (r.opcode.toNat ∈ checksOp3 → r'.op3 = r.op3) ∧
    (r.opcode.toNat ∉ ignoresImm → r'.imm = r.imm) ∧ r' ≠ r := by decide

theorem witness_IllegalOpcodeFaults :
    (CanFetch (machineAt 4 [30]) ∧ (recordAt (machineAt 4 [30])).opcode.toNat = 30) ∧
    (CanFetch (machineAt 4 [32]) ∧ (recordAt (machineAt 4 [32])).opcode.toNat = 32) :=
  ⟨⟨⟨rfl, by decide⟩, rfl⟩, ⟨⟨rfl, by decide⟩, rfl⟩⟩

theorem witness_DecodeFailureLeavesFetchedState :
    (CanFetch (machineAt 4 [0x20]) ∧ decodeRecord (recordAt (machineAt 4 [0x20])) = .error .invalidOpcode) ∧
    (CanFetch (machineAt 4 [0x08, 22]) ∧ decodeRecord (recordAt (machineAt 4 [0x08, 22])) = .error .invalidOperand) :=
  ⟨⟨⟨rfl, by decide⟩, rfl⟩, ⟨⟨rfl, by decide⟩, rfl⟩⟩

/-- PC at the last address where a record fits, and one further. -/
theorem witness_FetchReadsTheRecord :
    ((machineAt 131064 []).pc.toNat + 8 = (machineAt 131064 []).memSize.toNat) ∧
    ((machineAt 131065 []).memSize.toNat < (machineAt 131065 []).pc.toNat + 8 ∧
      (machineAt 131065 []).fsm = .running) := by decide

theorem witness_StepRunsDecodedInstruction :
    (Fetches (running (.movi 5 7)) (.movi 5 7) ∧ ∃ t, exec (.movi 5 7) (afterFetch (running (.movi 5 7))) = .next t) ∧
    (Fetches (running (.trp 2)) (.trp 2) ∧ exec (.trp 2) (afterFetch (running (.trp 2))) = .fault .inputHold) :=
  ⟨⟨fetches_movi, _, rfl⟩, fetches_trp2, rfl⟩

theorem witness_OldIrHasNoEffect : CanFetch (running (.movi 5 7)) := fetches_movi.1

theorem witness_TerminalStatesHalt : ({ State.reset with fsm := .aborted } : State).fsm ≠ .running := by decide

theorem witness_RunningStepsOrHolds :
    ((running (.trp 2)).fsm = .running ∧ (running (.trp 2)).input.ended = false ∧ Fetches (running (.trp 2)) (.trp 2) ∧
      0x0A#8 ∉ (running (.trp 2)).input.pending) ∧
    ((running (.trp 4)).fsm = .running ∧ (running (.trp 4)).input.ended = false ∧ Fetches (running (.trp 4)) (.trp 4) ∧
      (running (.trp 4)).input.pending = []) :=
  ⟨⟨rfl, rfl, fetches_trp2, by decide⟩, rfl, rfl, fetches_trp4, rfl⟩

theorem witness_SupplyLiftsTheHold :
    (step (running (.trp 2)) = .fault .inputHold ∧ 0x0A#8 ∈ [0x37#8, 0x0A#8]) ∧
    (step (running (.trp 4)) = .fault .inputHold ∧ Fetches (running (.trp 4)) (.trp 4) ∧ [0x37#8] ≠ []) :=
  ⟨⟨rfl, by decide⟩, rfl, fetches_trp4, by decide⟩

theorem witness_ExecuteFaultsExactlyWhen :
    State.reset.fsm = .running ∧ executeFault (.jmp 131065) State.reset = some .jumpOutOfBounds ∧
    executeFault (.jmp 131064) State.reset = none ∧ ∃ t, exec (.jmp 131064) State.reset = .next t :=
  ⟨rfl, rfl, rfl, _, rfl⟩

theorem witness_FailureHasNoPartialEffect :
    State.reset.fsm = .running ∧ ∃ t, exec (.str 0 131070) State.reset = .next t ∧ t.fsm = .faulted :=
  ⟨rfl, _, rfl, rfl⟩

/-- A fetch fault, a decode fault and an execute fault. -/
theorem witness_FaultedStateIsPrecise :
    (∃ t, step (machineAt 131065 []) = .next t ∧ t.fsm = .faulted) ∧
    (∃ t, step (machineAt 4 [0x20]) = .next t ∧ t.fsm = .faulted) ∧
    (∃ t, step (running (.divi 2 1 0)) = .next t ∧ t.fsm = .faulted) :=
  ⟨⟨_, rfl, rfl⟩, ⟨_, rfl, rfl⟩, ⟨_, rfl, rfl⟩⟩

theorem witness_TerminatesExactlyAfterTrapZero :
    Fetches (running (.trp 0)) (.trp 0) ∧
    ((running (.trp 0)).fsm = .running ∧ (running (.trp 0)).term = false ∧
      ∃ t, step (running (.trp 0)) = .next t ∧ t.fsm = .terminated) ∧
    (∃ t, exec (.trp 0) State.reset = .next t ∧ State.reset.term = false ∧ t.term = true) :=
  ⟨fetches_trp0, ⟨rfl, rfl, _, rfl, rfl⟩, _, rfl, rfl, rfl⟩

/-- The exit statuses of one lawful host. -/
def someReport : Config.HostReport where
  faultMessage := fun _ => []
  exitStatus := fun o =>
    match o with
    | .success => 0
    | .missingProgramArgument => 1
    | .imageTooLarge => 2
    | .unparsableMemorySize => 3
    | .unparsableInteger => 4
    | .fault => 5
  successValue := 0

theorem witness_lawful_report : someReport.Lawful :=
  ⟨fun a b h => by cases a <;> cases b <;> first | rfl | exact absurd h (by decide), by decide, rfl⟩

theorem witness_TerminationSignalSetOnlyByTrapZero :
    (∃ s, launch 131072 (some [4, 0, 0, 0]) = .ready s) ∧
    (∃ t, exec (.movi 5 7) State.reset = .next t) ∧
    (∃ t, step { running (.movi 5 7) with term := true } = .next t) ∧
    (Fetches (running (.movi 5 7)) (.movi 5 7) ∧
      ∃ t, exec (.movi 5 7) (afterFetch (running (.movi 5 7))) = .next t ∧ t.fsm = .running) :=
  ⟨⟨_, rfl⟩, ⟨_, rfl⟩, ⟨_, rfl⟩, fetches_movi, _, rfl, rfl⟩

theorem witness_StepKeepsInvariant : (running (.movi 5 7)).Inv ∧ ∃ t, step (running (.movi 5 7)) = .next t :=
  ⟨⟨⟨by decide, by decide⟩, rfl, rfl, rfl⟩, _, rfl⟩

theorem witness_LaunchSatisfiesInvariant : ∃ s, launch 4096 (some [0x10, 0, 0, 0]) = .ready s := ⟨_, rfl⟩

theorem witness_StepKeepsHistory : ∃ t, step ((running (.trp 4)).supply [0x41]) = .next t := ⟨_, rfl⟩

theorem witness_FaultKindIsNotObservable :
    (∃ t, step (running (.movi 5 7)) = .next t) ∧ step (running (.trp 2)) = .fault .inputHold := ⟨⟨_, rfl⟩, rfl⟩

/-- A cycle that reads nothing, a TRP 2 and a TRP 4 with input, and a TRP 4 at the end of input. -/
theorem witness_EnvironmentActsOnlyThroughReads :
    ((∃ t, step (running (.movi 5 7)) = .next t) ∧ ¬ Fetches (running (.movi 5 7)) (.trp 2) ∧
      ¬ Fetches (running (.movi 5 7)) (.trp 4)) ∧
    (∃ t, step ((running (.trp 2)).supply [0x37, 0x0A#8]) = .next t) ∧
    ((∃ t, step ((running (.trp 4)).supply [0x37]) = .next t) ∧
      ¬ (Fetches ((running (.trp 4)).supply [0x37]) (.trp 4) ∧ ((running (.trp 4)).supply [0x37]).input.pending = [])) ∧
    ∃ t, step (running (.trp 4)).endInput = .next t :=
  ⟨⟨⟨_, rfl⟩, fun h => absurd (fetches_movi.2.symm.trans h.2) (by simp), fun h => absurd (fetches_movi.2.symm.trans h.2) (by simp)⟩,
    ⟨_, rfl⟩, ⟨⟨_, rfl⟩, fun h => absurd h.2 (by decide)⟩, _, rfl⟩

theorem witness_ExecuteFrame :
    State.reset.mem.wf ∧ (∃ t, exec (.str 0 12) State.reset = .next t) ∧ writtenReg (.str 0 12) ≠ some 0 ∧
    (11 : Nat) < (storedRange (.str 0 12)).1 ∧ notTrap (.str 0 12) := ⟨by decide, ⟨_, rfl⟩, by decide, by decide, trivial⟩

theorem witness_UnnamedRegistersHaveNoEffect : (3 : RegIdx) ∉ namedRegs (.add 0 1 2) := by decide

/-- The last target where a record fits, and one further. -/
theorem witness_JmpChecksItsTarget :
    (131064#32).toNat + 8 ≤ State.reset.memSize.toNat ∧ State.reset.memSize.toNat < (131065#32).toNat + 8 := by decide

/-- MOVI, MOV, a load and an arithmetic instruction with cell 16 as destination: the last value where a record fits,
and one further. -/
theorem witness_UncheckedJumpFaultsAtNextFetch :
    (Fetches (running (.movi .pc 131064)) (.movi .pc 131064) ∧ (running (.movi .pc 131064)).term = false ∧
      registerResult (running (.movi .pc 131064)) (.movi .pc 131064) = some (.pc, 131064) ∧
      (131064#32).toNat + 8 ≤ (running (.movi .pc 131064)).memSize.toNat) ∧
    (Fetches (running (.movi .pc 131065)) (.movi .pc 131065) ∧
      registerResult (running (.movi .pc 131065)) (.movi .pc 131065) = some (.pc, 131065) ∧
      (running (.movi .pc 131065)).memSize.toNat < (131065#32).toNat + 8) ∧
    (Fetches (running (.mov .pc 1)) (.mov .pc 1) ∧ ∃ v, registerResult (running (.mov .pc 1)) (.mov .pc 1) = some (.pc, v)) ∧
    (Fetches (running (.ldr .pc 4)) (.ldr .pc 4) ∧
      registerResult (running (.ldr .pc 4)) (.ldr .pc 4) = some (.pc, 0x0000100B)) ∧
    (Fetches (running (.subi .pc .pc 8)) (.subi .pc .pc 8) ∧
      registerResult (running (.subi .pc .pc 8)) (.subi .pc .pc 8) = some (.pc, 4)) :=
  ⟨⟨⟨⟨rfl, by decide⟩, rfl⟩, rfl, rfl, by decide⟩, ⟨⟨⟨rfl, by decide⟩, rfl⟩, rfl, by decide⟩,
    ⟨⟨⟨rfl, by decide⟩, rfl⟩, _, rfl⟩, ⟨⟨⟨rfl, by decide⟩, rfl⟩, rfl⟩, ⟨⟨rfl, by decide⟩, rfl⟩, rfl⟩

/-- PC as the source of MOV and as each source of an arithmetic instruction, as the register STR and STB store at the
last address where it fits, and in the dump. -/
theorem witness_PcReadsAsNextAddress :
    (running (.mov 9 .pc)).term = false ∧ (running (.str .pc 131068)).mem.wf ∧
    (Fetches (running (.mov 9 .pc)) (.mov 9 .pc) ∧
      registerResult (running (.mov 9 .pc)) (.mov 9 .pc) = some (9, 12)) ∧
    (Fetches (running (.add 9 .pc .pc)) (.add 9 .pc .pc) ∧
      registerResult (running (.add 9 .pc .pc)) (.add 9 .pc .pc) = some (9, 24)) ∧
    (Fetches (running (.str .pc 131068)) (.str .pc 131068) ∧
      (131068#32).toNat + 4 ≤ (running (.str .pc 131068)).memSize.toNat) ∧
    (Fetches (running (.stb .pc 131071)) (.stb .pc 131071) ∧
      (131071#32).toNat + 1 ≤ (running (.stb .pc 131071)).memSize.toNat) ∧
    Fetches (running (.trp 98)) (.trp 98) :=
  ⟨rfl, by decide, ⟨⟨⟨rfl, by decide⟩, rfl⟩, rfl⟩, ⟨⟨⟨rfl, by decide⟩, rfl⟩, rfl⟩,
    ⟨⟨⟨rfl, by decide⟩, rfl⟩, by decide⟩, ⟨⟨⟨rfl, by decide⟩, rfl⟩, by decide⟩, ⟨rfl, by decide⟩, rfl⟩

/-- The last word and one byte further; its four bytes meet the second hypothesis of StoredValueReadsBack. -/
theorem witness_word_access :
    State.reset.mem.wf ∧ (131068#32).toNat + 4 ≤ State.reset.memSize.toNat ∧
    State.reset.memSize.toNat < (131069#32).toNat + 4 ∧ (3 : Nat) < 4 := by decide

/-- The last byte and one byte further. -/
theorem witness_byte_access :
    State.reset.mem.wf ∧ (131071#32).toNat + 1 ≤ State.reset.memSize.toNat ∧
    State.reset.memSize.toNat < (131072#32).toNat + 1 := by decide

/-- The record that stores is at 4 and the next at 12: STR of PC at 12, STR across the two records, and STB at the next
record's last byte. -/
theorem witness_StoreIsSeenByNextFetch :
    (Fetches (running (.str .pc 12)) (.str .pc 12) ∧ (running (.str .pc 12)).mem.wf ∧
      (running (.str .pc 12)).term = false ∧ (12#32).toNat + 4 ≤ (running (.str .pc 12)).memSize.toNat ∧
      (running (.str .pc 12)).pc.toNat + 16 ≤ (running (.str .pc 12)).memSize.toNat) ∧
    (Fetches (running (.str 1 10)) (.str 1 10) ∧ (running (.str 1 10)).mem.wf ∧
      (running (.str 1 10)).pc.toNat + 16 ≤ (running (.str 1 10)).memSize.toNat) ∧
    (Fetches (running (.stb 1 19)) (.stb 1 19) ∧ (running (.stb 1 19)).mem.wf ∧
      (running (.stb 1 19)).pc.toNat + 16 ≤ (running (.stb 1 19)).memSize.toNat) :=
  ⟨⟨⟨⟨rfl, by decide⟩, rfl⟩, by decide, rfl, by decide, by decide⟩,
    ⟨⟨⟨rfl, by decide⟩, rfl⟩, by decide, by decide⟩, ⟨⟨rfl, by decide⟩, rfl⟩, by decide, by decide⟩

theorem witness_DivAndDiviUnsigned :
    (State.reset.setReg 0 428).reg 0 ≠ 0 ∧ State.reset.reg 0 = 0 ∧ (428 : Word) ≠ 0 ∧ (0 : Word) = 0 := by decide

theorem witness_SdivTruncatesTowardZero :
    let s := (State.reset.setReg 1 0x80000000).setReg 0 0xFFFFFFFF
    s.reg 0 ≠ 0 ∧ s.reg 1 = 0x80000000 ∧ s.reg 0 = 0xFFFFFFFF ∧ State.reset.reg 0 = 0 := by decide

/-- The hold; a line that parses; the empty line, which does not; the end of input with and without bytes. -/
theorem witness_TrapTwoReadsLine :
    (0x0A#8 ∉ State.reset.input.pending ∧ State.reset.input.ended = false) ∧
    ((State.reset.supply [0x37, 0x0A#8, 0x41]).input.pending = [0x37] ++ 0x0A#8 :: [0x41] ∧ 0x0A#8 ∉ [0x37#8] ∧
      parseInt [0x37] = some 7) ∧
    ((State.reset.supply [0x0A#8]).input.pending = [] ++ 0x0A#8 :: [] ∧ 0x0A#8 ∉ ([] : List Byte) ∧
      parseInt [] = none) ∧
    ((State.reset.supply [0x37]).endInput.input.pending = [0x37] ∧
      (State.reset.supply [0x37]).endInput.input.ended = true) ∧
    (State.reset.endInput.input.pending = [] ∧ State.reset.endInput.input.ended = true) := by decide

/-- "2147483648" is a string of digits that is out of range as it stands and in range after a minus sign. -/
theorem witness_ParseIntOnNumerals :
    let ds : List Byte := [0x32, 0x31, 0x34, 0x37, 0x34, 0x38, 0x33, 0x36, 0x34, 0x38]
    ds ≠ [] ∧ (∀ b ∈ ds, 0x30 ≤ b.toNat ∧ b.toNat ≤ 0x39) ∧
    ds.foldl (fun v b => 10 * v + (b.toNat - 0x30)) 0 = 2147483648 := by decide

theorem witness_TrapFourReadsCharacter :
    (State.reset.input.pending = [] ∧ State.reset.input.ended = false) ∧
    ((State.reset.supply [0x41]).input.pending = 0x41 :: []) ∧
    (State.reset.endInput.input.pending = [] ∧ State.reset.endInput.input.ended = true) := by decide

theorem witness_OtherTrapCodesFault :
    (5 : Word) ∉ [0, 1, 2, 3, 4, 98] ∧ Fetches (machineAt 20 (encode (.trp 5))) (.trp 5) ∧
    (machineAt 20 (encode (.trp 5))).pc = 20 := ⟨by decide, ⟨⟨rfl, by decide⟩, rfl⟩, rfl⟩

theorem witness_TrapZeroRaisesTermination : Fetches (running (.trp 0)) (.trp 0) := fetches_trp0

theorem witness_LaunchLoadsImage :
    (4 : Nat) < 2 ^ 32 ∧ 4 ≤ ([1, 2, 3, 4] : List Byte).length ∧ ([1, 2, 3, 4] : List Byte).length ≤ 4 := by decide

theorem witness_LaunchSetsTheState : ∃ s, launch 4 (some [0x10, 0, 0, 0]) = .ready s := ⟨_, rfl⟩

theorem witness_LaunchRefusals :
    2 ^ 32 ≤ (4294967296 : Nat) ∧ (0 : Nat) < 2 ^ 32 ∧ ((3 : Nat) < 2 ^ 32 ∧ (3 : Nat) < 4) ∧
    ((4 : Nat) < 2 ^ 32 ∧ 4 ≤ 4 ∧ 4 ≤ ([0, 0, 0, 0, 0] : List Byte).length ∧
      4 < ([0, 0, 0, 0, 0] : List Byte).length) := by decide

end Sys2Proof.Tests
end

section
/-! SUPPORT. 10_state.md R33: what execute, a step and a launch do to the termination signal, and the cycle of a fetched instruction in the words of the statements. -/

namespace Sys2Proof.Proofs

open Sys2Proof.Machine Sys2Proof.Claims

/-! ## The statements' words and the model's -/

/-- The record the statements read at PC is the one a fetch reads. -/
theorem recordAt_eq_recordAtPc (s : State) : recordAt s = s.recordAtPc := by
  rw [State.recordAtPc, recordOf, ofNat_leNat_four]
  rfl

/-- The state the statements give to decode and execute is the fetched state. -/
theorem afterFetch_eq_fetched (s : State) : afterFetch s = s.fetched := by
  rw [afterFetch, recordAt_eq_recordAtPc]
  rfl

/-- A cycle whose instruction execute answers ends with the termination check (60_exceptions.md R243). -/
theorem step_of_exec_next {s t : State} {i : Instr} (hf : Fetches s i) (he : exec i (afterFetch s) = .next t) :
    step s = .next t.checkTerm := by
  obtain ⟨⟨hrun, hfits⟩, hdec⟩ := hf
  have hir : s.fetched.ir = recordAt s := (recordAt_eq_recordAtPc s).symm
  rw [afterFetch_eq_fetched] at he
  rw [step_running s hrun, cycle_eq, if_pos hfits, runFetched, hir, hdec]
  simp only [he]

/-! ## The termination signal -/

/-- An execute that answers sets the signal for TRP 0, and for every other instruction leaves it as it was. -/
theorem exec_term {i : Instr} {s t : State} (h : exec i s = .next t) : t.term = (s.term || decide (i = .trp 0)) := by
  by_cases hi : i = .trp 0
  · subst hi
    cases h
    simp
  · have hsame : t.term = s.term := by
      cases exec_effect h with
      | terminates h0 => exact absurd h0 hi
      | writes | stores | faults | emits | reads | aborts | draws => rfl
    rw [hsame, decide_eq_false hi, Bool.or_false]

@[simp] theorem checkTerm_term (s : State) : s.checkTerm.term = s.term := by
  rw [State.checkTerm_eq]
  split <;> rfl

/-- No step clears the signal. -/
theorem step_keeps_term {s t : State} (h : step s = .next t) (hs : s.term = true) : t.term = true := by
  obtain ⟨-, ⟨-, rfl⟩ | ⟨-, ⟨f, -, rfl⟩ | ⟨i, u, -, hu, rfl⟩⟩⟩ := step_cases h
  · exact hs
  · exact hs
  · have hfetched : s.fetched.term = true := hs
    rw [checkTerm_term, exec_term hu, hfetched, Bool.true_or]

/-- A launch that starts passed every check of its size and image, and starts in their launched state
(70_reset_and_hazards.md R272, R273). -/
theorem launch_ready {n : Nat} {image : Option (List Byte)} {s : State} (h : launch n image = .ready s) :
    ∃ bytes, image = some bytes ∧ n < 2 ^ 32 ∧ 4 ≤ n ∧ 4 ≤ bytes.length ∧ bytes.length ≤ n ∧
      s = launchedState (BitVec.ofNat 32 n) bytes := by
  cases image with
  | none => rw [launch] at h; split at h <;> cases h
  | some bytes =>
    simp only [launch] at h
    split_ifs at h with hsize hshort hlarge
    cases h
    exact ⟨bytes, rfl, by omega, by omega, by omega, by omega, rfl⟩

@[simp] theorem launchedState_term (n : Word) (image : List Byte) : (launchedState n image).term = false := rfl

/-- The termination check on a state that still runs looks at the signal alone. -/
theorem checkTerm_of_running {s : State} (h : s.fsm = .running) :
    s.checkTerm = if s.term = true then { s with fsm := .terminated } else s := by
  rw [State.checkTerm_eq]
  simp only [h, true_and]

/-- Settles O18: reset and launch by their states, execute by its effects, a step by its cases, and the observation
by the termination check that ends the cycle. -/
theorem terminationSignalSetOnlyByTrapZero : Obligations.TerminationSignalSetOnlyByTrapZero := by
  refine ⟨rfl, ?launch, fun i s t => exec_term, fun s t => step_keeps_term, ?observed⟩
  case launch =>
    intro n image s h
    obtain ⟨bytes, -, -, -, -, -, rfl⟩ := launch_ready h
    exact launchedState_term _ _
  case observed =>
    intro s i t hf he hrun
    rw [step_of_exec_next hf he, checkTerm_of_running hrun]

end Sys2Proof.Proofs
end

section
/-! SUPPORT. 30_encoding.md R91, R93: what the decoder says of an illegal opcode and of a TRP whose code has no trap, and the cycles of both. -/

namespace Sys2Proof.Proofs

open Sys2Proof.Machine Sys2Proof.Claims

/-! ## The decoder on illegal opcodes and on encoded records -/

/-- A byte outside the 18 legal ones falls through every row of the decoder's table (30_encoding.md R91). -/
theorem decodeRecord_of_not_legal {r : Record} (h : r.opcode.toNat ∉ legalOpcodes) :
    decodeRecord r = .error .invalidOpcode := by
  simp only [legalOpcodes, List.mem_cons, List.not_mem_nil, or_false] at h
  unfold decodeRecord
  split
  case h_19 => rfl
  all_goals omega

/-- The bytes of a record that decodes begin with its instruction. -/
theorem decode_bytes_of_ok {r : Record} {i : Instr} (h : decodeRecord r = .ok i) (rest : List Byte) :
    decode (r.bytes ++ rest) = .ok (i, rest) := by
  rw [decode, takeRecord_bytes]
  simp only [h]

/-! ## The cycle of a record that does not decode -/

/-- A decode failure ends the cycle: the fetched state enters FAULTED (40_fetch_decode.md R118). -/
theorem step_of_decode_error {s : State} {f : DecodeFault} (hs : CanFetch s)
    (hdec : decodeRecord (recordAt s) = .error f) :
    step s = .next (faulted (afterFetch s) (kindOfDecode f)) := by
  obtain ⟨hrun, hfits⟩ := hs
  have hir : s.fetched.ir = recordAt s := (recordAt_eq_recordAtPc s).symm
  rw [afterFetch_eq_fetched, step_running s hrun, cycle_eq, if_pos hfits, runFetched, hir, hdec]
  rfl

/-- Settles O6: the listed bytes are the ones outside the decoder's table, and a decode failure ends the cycle. -/
theorem illegalOpcodeFaults : Obligations.IllegalOpcodeFaults := by
  intro s hs hop
  have hillegal : (recordAt s).opcode.toNat ∉ legalOpcodes := by
    simp only [legalOpcodes, List.mem_cons, List.not_mem_nil, or_false] at hop ⊢
    omega
  have hdec : decodeRecord (recordAt s) = .error .invalidOpcode := decodeRecord_of_not_legal hillegal
  exact ⟨hdec, step_of_decode_error hs hdec⟩

/-! ## A TRP whose code has no trap -/

/-- An encoded TRP decodes to itself whatever its code, which is no concern of the decoder (30_encoding.md R93). -/
theorem decode_encode_trp (code : Word) : decode (encode (.trp code)) = .ok (.trp code, []) := by
  have hdec : decodeRecord (encodeRecord (.trp code)) = .ok (.trp code) := rfl
  rw [encode, ← List.append_nil (encodeRecord _).bytes, decode_bytes_of_ok hdec]

/-- A code without a trap faults in execute (45_trap.md R223). -/
theorem exec_trp_of_not_mem {code : Word} (h : code ∉ [0, 1, 2, 3, 4, 98]) (s : State) :
    exec (.trp code) s = .next (s.takeFault .invalidTrapCode) := by
  obtain ⟨rfl, -⟩ | ⟨rfl, -⟩ | ⟨rfl, -⟩ | ⟨rfl, -⟩ | ⟨rfl, -⟩ | ⟨rfl, -⟩ | ⟨-, hfault⟩ := execTrp_cases code s
  on_goal 7 => exact hfault
  all_goals exact absurd h (by decide)

/-- The termination check passes over a state that faulted. -/
@[simp] theorem checkTerm_takeFault (s : State) (k : FaultKind) : (s.takeFault k).checkTerm = s.takeFault k := rfl

/-- Settles O48: the decoder does not look at the code, execute faults on it, and the fault address is the PC that
the cycle latched. -/
theorem otherTrapCodesFault : Obligations.OtherTrapCodesFault := by
  refine ⟨fun code _ => decode_encode_trp code, fun code s h => exec_trp_of_not_mem h s, ?atTwenty⟩
  case atTwenty =>
    intro s hf hpc
    have hexec := exec_trp_of_not_mem (code := 5) (by decide) (afterFetch s)
    have hstep := step_of_exec_next hf hexec
    rw [checkTerm_takeFault] at hstep
    exact ⟨_, hstep, rfl, hpc⟩

end Sys2Proof.Proofs
end

section
/-! SUPPORT. 40_fetch_decode.md R111, R112, R118: what fetch reads and writes, and the cycles of a record that does not fit and of one that does not decode. -/

namespace Sys2Proof.Proofs

open Sys2Proof.Machine Sys2Proof.Claims

/-! ## Fetch in the words of the statements -/

/-- A record that fits is fetched: the IR is written whole and PC advances (40_fetch_decode.md R111). -/
theorem fetch_of_fits {s : State} (h : s.pc.toNat + 8 ≤ s.memSize.toNat) :
    s.fetch = some ((s.setIr (recordAt s)).setPc (s.pc + 8)) := by
  rw [State.fetch_eq, if_pos h, recordAt_eq_recordAtPc]

/-- A record that does not fit is not fetched (40_fetch_decode.md R112). -/
theorem fetch_of_not_fits {s : State} (h : s.memSize.toNat < s.pc.toNat + 8) : s.fetch = none := by
  rw [State.fetch_eq, if_neg (Nat.not_le.mpr h)]

/-- A running machine's cycle on a record that does not fit enters FAULTED with nothing fetched. -/
theorem step_of_not_fits {s : State} (hrun : s.fsm = .running) (h : s.memSize.toNat < s.pc.toNat + 8) :
    step s = .next (faulted s.latchStart .fetchOutOfBounds) := by
  rw [step_running s hrun, cycle_eq, if_neg (Nat.not_le.mpr h)]
  rfl

/-- Settles O8, by the two cases of the bound on PC. -/
theorem fetchReadsTheRecord : Obligations.FetchReadsTheRecord := by
  refine ⟨?fits, ?overruns⟩
  case fits =>
    intro s h
    have hframe : ∀ r, r ≠ RegIdx.pc → ((s.setIr (recordAt s)).setPc (s.pc + 8)).reg r = s.reg r := by
      intro r hr
      rw [State.setPc_reg_other _ _ hr, State.setIr_reg]
    exact ⟨_, fetch_of_fits h, rfl, State.setPc_pc _ _, State.pc_add_eight s h, hframe, rfl⟩
  case overruns =>
    intro s h
    exact ⟨fetch_of_not_fits h, fun hrun => step_of_not_fits hrun h⟩

/-! ## Decode failures -/

/-- Settles O7: a decode failure ends the cycle, with the kind of the decoder's own refusal. -/
theorem decodeFailureLeavesFetchedState : Obligations.DecodeFailureLeavesFetchedState := by
  intro s f hs hdec
  refine ⟨kindOfDecode f, step_of_decode_error hs hdec, ?opcode, ?operand⟩
  case opcode =>
    rintro rfl
    rfl
  case operand =>
    rintro rfl
    rfl

end Sys2Proof.Proofs
end

section
/-! SUPPORT. 43_load_store.md R167: an execute that faults enters FAULTED and has no other effect. -/

namespace Sys2Proof.Proofs

open Sys2Proof.Machine

/-- Of the effects of execute, taking a fault is the only one that leads a running machine to FAULTED
(60_exceptions.md R244). -/
theorem exec_to_faulted {i : Instr} {s t : State} (hrun : s.fsm = .running) (h : exec i s = .next t)
    (ht : t.fsm = .faulted) : ∃ k, k ≠ .fetchOutOfBounds ∧ t = s.takeFault k := by
  cases exec_effect h with
  | faults k hk => exact ⟨k, hk, rfl⟩
  | aborts => cases ht
  | writes | stores | terminates | emits | reads | draws =>
    have hstill : s.fsm = .faulted := ht
    rw [hrun] at hstill
    cases hstill

/-- Settles O15: the state after a failure is the one that taking its fault enters, which saves the fault address
and the kind and writes nothing else. -/
theorem failureHasNoPartialEffect : Obligations.FailureHasNoPartialEffect := by
  intro i s t hrun h ht
  obtain ⟨k, -, rfl⟩ := exec_to_faulted hrun h ht
  exact ⟨State.takeFault_reg s k, fun _ => rfl, rfl⟩

end Sys2Proof.Proofs
end

section
/-! SUPPORT. 45_trap.md R217: what TRP 3 emits. -/

namespace Sys2Proof.Proofs

open Sys2Proof.Machine

/-- TRP 3 dispatches to the trap that writes a character (45_trap.md R212). -/
theorem exec_trp_three (s : State) : exec (.trp 3) s = trapWriteChar s := rfl

/-- Settles O45: the trap emits R3 cut to a byte, and cutting a word to a byte keeps its bits 7 to 0. -/
theorem trapThreeWritesLowByte : Obligations.TrapThreeWritesLowByte := by
  intro s
  have hlow : (s.reg .r3).setWidth 8 = (s.reg .r3).extractLsb' 0 8 := BitVec.setWidth_eq_extractLsb' (by decide)
  rw [exec_trp_three, trapWriteChar, State.emit, hlow]

end Sys2Proof.Proofs
end

section
/-! SUPPORT. 60_exceptions.md R246: a cycle ends in TERMINATED exactly when it executes TRP 0. -/

namespace Sys2Proof.Proofs

open Sys2Proof.Machine Sys2Proof.Claims

/-- TRP 0 raises the signal and does nothing else (45_trap.md R213). -/
theorem exec_trp_zero (s : State) : exec (.trp 0) s = .next s.raiseTerm := rfl

/-- The cycle of a TRP 0 ends in TERMINATED, the signal raised in the fetched state. -/
theorem step_of_fetches_trp_zero {s : State} (h : Fetches s (.trp 0)) :
    step s = .next { afterFetch s with term := true, fsm := .terminated } := by
  have hrun : (afterFetch s).raiseTerm.fsm = .running := h.1.1
  rw [step_of_exec_next h (exec_trp_zero _), checkTerm_of_running hrun, if_pos (State.raiseTerm_term _)]
  rfl

/-- PC after fetch is the address of the next record (40_fetch_decode.md R111). -/
theorem afterFetch_pc (s : State) : (afterFetch s).pc = s.pc + 8 := by
  rw [afterFetch_eq_fetched]
  exact State.setPc_pc _ _

/-- An execute that raises the signal was that of a TRP 0. -/
theorem eq_trp_zero_of_exec_raises_term {i : Instr} {s t : State} (h : exec i s = .next t) (hs : s.term = false)
    (ht : t.term = true) : i = .trp 0 := by
  have hterm := exec_term h
  rwa [hs, ht, Bool.false_or, eq_comm, decide_eq_true_eq] at hterm

/-- Execute itself never enters TERMINATED: that is left to the termination check. -/
theorem exec_fsm_ne_terminated {i : Instr} {s t : State} (hrun : s.fsm = .running) (h : exec i s = .next t) :
    t.fsm ≠ .terminated := by
  cases exec_effect h with
  | faults | aborts => exact Fsm.noConfusion
  | writes | stores | terminates | emits | reads | draws =>
    have hne : s.fsm ≠ .terminated := by rw [hrun]; decide
    exact hne

/-- The termination check moves a state to TERMINATED only when its signal is raised (60_exceptions.md R243). -/
theorem term_of_checkTerm_terminated {s : State} (hs : s.fsm ≠ .terminated) (h : s.checkTerm.fsm = .terminated) :
    s.term = true := by
  rw [State.checkTerm_eq] at h
  split at h
  case isTrue hcond => exact hcond.2
  case isFalse => exact absurd h hs

/-- A cycle that begins with the signal down and ends in TERMINATED has fetched a TRP 0: neither a fault nor execute
enters TERMINATED, so the termination check did, on a signal this execute raised. -/
theorem fetches_trp_zero_of_step_terminated {s t : State} (hs : s.term = false) (h : step s = .next t)
    (ht : t.fsm = .terminated) : Fetches s (.trp 0) := by
  obtain ⟨hrun, ⟨-, rfl⟩ | ⟨hfits, ⟨f, -, rfl⟩ | ⟨i, u, hdec, hexec, rfl⟩⟩⟩ := step_cases h
  · cases ht
  · cases ht
  · have hfsm : u.fsm ≠ .terminated := exec_fsm_ne_terminated (s := s.fetched) hrun hexec
    have hterm : u.term = true := term_of_checkTerm_terminated hfsm ht
    obtain rfl : i = .trp 0 := eq_trp_zero_of_exec_raises_term hexec hs hterm
    rw [← recordAt_eq_recordAtPc] at hdec
    exact ⟨⟨hrun, hfits⟩, hdec⟩

/-- Settles O17: TRP 0's cycle by its execute and the termination check, the converse by the cases of a step, and
the signal by the effects of execute. -/
theorem terminatesExactlyAfterTrapZero : Obligations.TerminatesExactlyAfterTrapZero := by
  refine ⟨?terminates, fun s t _ hs => fetches_trp_zero_of_step_terminated hs,
    fun i s t => eq_trp_zero_of_exec_raises_term⟩
  case terminates =>
    intro s hf
    have hstatus (h : Config.HostReport) (hlawful : h.Lawful) : some (h.exitStatus .success) = some h.successValue :=
      congrArg some hlawful.2.2
    exact ⟨_, step_of_fetches_trp_zero hf, rfl, afterFetch_pc s, fun _ => Iff.rfl, hstatus⟩

end Sys2Proof.Proofs
end

section
/-! SUPPORT. 70_reset_and_hazards.md R270: when a launch starts the CORE, and what its memory then holds. -/

namespace Sys2Proof.Proofs

open Sys2Proof.Machine Sys2Proof.Claims

/-- A byte string written at offset 0 of zeroed memory is read back there, with zeros beyond it. -/
theorem read_writeBytes_zeroed (bs : List Byte) (k : Nat) : (Memory.writeBytes [] 0 bs).read k = bs.getD k 0 := by
  have hwf : Memory.wf [] := ⟨List.Pairwise.nil, by simp⟩
  by_cases hk : k < bs.length
  · have hread := Memory.read_writeBytes_inside [] 0 k bs hwf hk
    rw [Nat.zero_add] at hread
    rw [hread, List.getD_eq_getElem _ _ hk]
  · have hbeyond : bs.length ≤ k := Nat.le_of_not_lt hk
    rw [Memory.read_writeBytes_outside [] 0 k bs hwf (by omega), Memory.read_nil,
      List.getD_eq_default _ _ hbeyond]

@[simp] theorem launchedState_memSize (n : Word) (image : List Byte) : (launchedState n image).memSize = n := rfl

/-- Setting PC in the last step of the reset sequence leaves memory as the image's copy made it
(70_reset_and_hazards.md R273). -/
@[simp] theorem launchedState_mem (n : Word) (image : List Byte) :
    (launchedState n image).mem = Memory.writeBytes [] 0 image := rfl

/-- A launch whose size and image pass every check starts the CORE (70_reset_and_hazards.md R272). -/
theorem launch_of_fits {n : Nat} {image : List Byte} (hsize : n < 2 ^ 32) (hword : 4 ≤ image.length)
    (hfits : image.length ≤ n) : launch n (some image) = .ready (launchedState (BitVec.ofNat 32 n) image) := by
  have hshort : ¬(n < 4 ∨ image.length < 4) := by omega
  simp only [launch, if_neg (Nat.not_le.mpr hsize), if_neg hshort, if_neg (Nat.not_lt.mpr hfits)]

/-- Settles O49: the launch passes its checks, its size is a 32-bit word, and its memory is the image written at
offset 0 of zeroed memory. -/
theorem launchLoadsImage : Obligations.LaunchLoadsImage := by
  intro n image hsize hword hfits
  refine ⟨_, launch_of_fits hsize hword hfits, ?memSize, ?bytes⟩
  case memSize =>
    rw [launchedState_memSize, BitVec.toNat_ofNat, Nat.mod_eq_of_lt hsize]
  case bytes =>
    intro k
    rw [byteAt, launchedState_mem, read_writeBytes_zeroed]

end Sys2Proof.Proofs
end

section
/-! SUPPORT. 30_encoding.md R84 to R92: the decoder read through the operand form of the opcode byte, its verdict on every record, and the round trips of decoder and encoder. -/

namespace Sys2Proof.Proofs

open Sys2Proof.Machine Sys2Proof.Claims

/-! ## The operand forms -/

/-- The operands a record's opcode byte calls for, and the instruction they make (30_encoding.md R84, R87). -/
inductive OperandForm where
  | illegal
  | imm (mk : Word → Instr)
  | regImm (mk : RegIdx → Word → Instr)
  | regReg (mk : RegIdx → RegIdx → Instr)
  | regRegImm (mk : RegIdx → RegIdx → Word → Instr)
  | regRegReg (mk : RegIdx → RegIdx → RegIdx → Instr)

/-- The form of each opcode byte (30_encoding.md R86). -/
def formOf (opcode : Byte) : OperandForm :=
  match opcode.toNat with
  | 1 => .imm .jmp
  | 7 => .regReg .mov
  | 8 => .regImm .movi
  | 9 => .regImm .lda
  | 10 => .regImm .str
  | 11 => .regImm .ldr
  | 12 => .regImm .stb
  | 13 => .regImm .ldb
  | 18 => .regRegReg .add
  | 19 => .regRegImm .addi
  | 20 => .regRegReg .sub
  | 21 => .regRegImm .subi
  | 22 => .regRegReg .mul
  | 23 => .regRegImm .muli
  | 24 => .regRegReg .div
  | 25 => .regRegReg .sdiv
  | 26 => .regRegImm .divi
  | 31 => .imm .trp
  | _ => .illegal

/-- What the decoder makes of a record whose opcode has this form. -/
@[simp] def OperandForm.decode (r : Record) : OperandForm → Except DecodeFault Instr
  | .illegal => .error .invalidOpcode
  | .imm mk => .ok (mk r.imm)
  | .regImm mk => decodeRI r mk
  | .regReg mk => decodeRR r mk
  | .regRegImm mk => decodeRRI r mk
  | .regRegReg mk => decodeRRR r mk

/-- The number of significant slots of a form, which are its first ones (30_encoding.md R87). -/
@[simp] def OperandForm.slots : OperandForm → Nat
  | .illegal | .imm _ => 0
  | .regImm _ => 1
  | .regReg _ | .regRegImm _ => 2
  | .regRegReg _ => 3

/-- The form belongs to a legal opcode byte. -/
@[simp] def OperandForm.legal : OperandForm → Bool
  | .illegal => false
  | .imm _ | .regImm _ | .regReg _ | .regRegImm _ | .regRegReg _ => true

/-- A legal form without an immediate (30_encoding.md R90). -/
@[simp] def OperandForm.dropsImm : OperandForm → Bool
  | .illegal | .imm _ | .regImm _ | .regRegImm _ => false
  | .regReg _ | .regRegReg _ => true

/-- The encoder puts the opcode byte, the registers and the immediate of an instruction of this form where the
decoder looks for them. -/
def OperandForm.EncodesAs (opcode : Byte) : OperandForm → Prop
  | .illegal => True
  | .imm mk => ∀ v, encodeRecord (mk v) = ⟨opcode, 0, 0, 0, v⟩
  | .regImm mk => ∀ a v, encodeRecord (mk a v) = ⟨opcode, regByte a, 0, 0, v⟩
  | .regReg mk => ∀ a b, encodeRecord (mk a b) = ⟨opcode, regByte a, regByte b, 0, 0⟩
  | .regRegImm mk => ∀ a b v, encodeRecord (mk a b v) = ⟨opcode, regByte a, regByte b, 0, v⟩
  | .regRegReg mk => ∀ a b c, encodeRecord (mk a b c) = ⟨opcode, regByte a, regByte b, regByte c, 0⟩

theorem formOf_of_not_legal {b : Byte} (h : b.toNat ∉ legalOpcodes) : formOf b = .illegal := by
  simp only [legalOpcodes, List.mem_cons, List.not_mem_nil, or_false] at h
  unfold formOf
  split
  case h_19 => rfl
  all_goals omega

/-- An opcode byte is illegal or one of the 18 legal ones (30_encoding.md R86, R91). -/
theorem opcode_cases {P : Byte → Prop} (hillegal : ∀ b : Byte, b.toNat ∉ legalOpcodes → P b)
    (hlegal : ∀ n ∈ legalOpcodes, P (BitVec.ofNat 8 n)) (b : Byte) : P b := by
  by_cases h : b.toNat ∈ legalOpcodes
  · have hb := hlegal _ h
    rwa [BitVec.ofNat_toNat, BitVec.setWidth_eq] at hb
  · exact hillegal b h

theorem decodeRecord_eq_decode_formOf (r : Record) : decodeRecord r = (formOf r.opcode).decode r := by
  obtain ⟨opcode, op1, op2, op3, imm⟩ := r
  induction opcode using opcode_cases with
  | hillegal b h => rw [decodeRecord_of_not_legal h, formOf_of_not_legal h, OperandForm.decode]
  | hlegal n h =>
    unfold legalOpcodes at h
    fin_cases h <;> rfl

theorem formOf_encodesAs (b : Byte) : (formOf b).EncodesAs b := by
  induction b using opcode_cases with
  | hillegal b h =>
    rw [formOf_of_not_legal h]
    trivial
  | hlegal n h =>
    unfold legalOpcodes at h
    fin_cases h <;> simp [formOf, OperandForm.EncodesAs, encodeRecord]

/-- The lists of the statements say of an opcode byte what its form says. -/
theorem formOf_lists (b : Byte) :
    (b.toNat ∈ legalOpcodes ↔ (formOf b).legal = true) ∧ (b.toNat ∈ checksOp1 ↔ 1 ≤ (formOf b).slots) ∧
    (b.toNat ∈ checksOp2 ↔ 2 ≤ (formOf b).slots) ∧ (b.toNat ∈ checksOp3 ↔ 3 ≤ (formOf b).slots) ∧
    (b.toNat ∈ ignoresImm ↔ (formOf b).dropsImm = true) := by
  induction b using opcode_cases with
  | hillegal b h =>
    rw [formOf_of_not_legal h]
    simp only [legalOpcodes, List.mem_cons, not_or] at h
    simp [legalOpcodes, checksOp1, checksOp2, checksOp3, ignoresImm, h]
  | hlegal n h =>
    unfold legalOpcodes at h
    fin_cases h <;> decide

/-! ## Decode of encode -/

/-- The record of an instruction decodes to it, whichever its form. -/
theorem decodeRecord_encodeRecord (i : Instr) : decodeRecord (encodeRecord i) = .ok i := by
  rw [decodeRecord_eq_decode_formOf]
  cases i with
  | jmp | trp => rfl
  | movi | lda | str | ldr | stb | ldb => simp [encodeRecord, formOf, decodeRI]
  | mov => simp [encodeRecord, formOf, decodeRR, decodeRRI]
  | addi | subi | muli | divi => simp [encodeRecord, formOf, decodeRRI]
  | add | sub | mul | div | sdiv => simp [encodeRecord, formOf, decodeRRR]

/-- Settles O1: a record's bytes are read back as the record, and the record an instruction encodes to decodes to that
instruction. -/
theorem decodeUndoesEncode : Obligations.DecodeUndoesEncode := by
  intro i rest
  exact decode_bytes_of_ok (decodeRecord_encodeRecord i) rest

/-! ## What the decoder answers -/

/-- Everything a slot check can answer (30_encoding.md R88). -/
theorem slotReg_cases (b : Byte) :
    (¬ 21 < b.toNat ∧ ∃ a, regByte a = b ∧ slotReg b = .ok a) ∨
    (21 < b.toNat ∧ slotReg b = .error .invalidOperand) := by
  by_cases h : b.toNat < 22
  · exact .inl ⟨by omega, _, (slotReg_ok (slotReg_of_lt h)).2, slotReg_of_lt h⟩
  · exact .inr ⟨by omega, slotReg_of_ge h⟩

/-- The record with its don't-care slots and its unused immediate cleared (30_encoding.md R89, R90). -/
def clearDontCare (r : Record) : Record where
  opcode := r.opcode
  op1 := if r.opcode.toNat ∈ checksOp1 then r.op1 else 0
  op2 := if r.opcode.toNat ∈ checksOp2 then r.op2 else 0
  op3 := if r.opcode.toNat ∈ checksOp3 then r.op3 else 0
  imm := if r.opcode.toNat ∈ ignoresImm then 0 else r.imm

/-- Everything the decoder can answer (40_fetch_decode.md R116). -/
theorem decodeRecord_cases (r : Record) :
    (r.opcode.toNat ∉ legalOpcodes ∧ decodeRecord r = .error .invalidOpcode) ∨
    (r.opcode.toNat ∈ legalOpcodes ∧ BadSlot r ∧ decodeRecord r = .error .invalidOperand) ∨
    (r.opcode.toNat ∈ legalOpcodes ∧ ¬ BadSlot r ∧ ∃ i, decodeRecord r = .ok i ∧ encodeRecord i = clearDontCare r) := by
  obtain ⟨hlegal, h1, h2, h3, himm⟩ := formOf_lists r.opcode
  have henc := formOf_encodesAs r.opcode
  simp only [BadSlot, clearDontCare, hlegal, h1, h2, h3, himm, decodeRecord_eq_decode_formOf]
  cases hform : formOf r.opcode with
  | illegal => exact .inl ⟨Bool.false_ne_true, rfl⟩
  | imm mk =>
    rw [hform] at henc
    simp [henc r.imm]
  | regImm mk =>
    rw [hform] at henc
    obtain ⟨b1, a, ha, e1⟩ | ⟨b1, e1⟩ := slotReg_cases r.op1
    · simp [decodeRI, b1, e1, henc a r.imm, ha]
    · simp [decodeRI, b1, e1]
  | regReg mk =>
    rw [hform] at henc
    obtain ⟨b1, a, ha, e1⟩ | ⟨b1, e1⟩ := slotReg_cases r.op1
    · obtain ⟨b2, b, hb, e2⟩ | ⟨b2, e2⟩ := slotReg_cases r.op2
      · simp [decodeRR, decodeRRI, b1, b2, e1, e2, henc a b, ha, hb]
      · simp [decodeRR, decodeRRI, b2, e1, e2]
    · simp [decodeRR, decodeRRI, b1, e1]
  | regRegImm mk =>
    rw [hform] at henc
    obtain ⟨b1, a, ha, e1⟩ | ⟨b1, e1⟩ := slotReg_cases r.op1
    · obtain ⟨b2, b, hb, e2⟩ | ⟨b2, e2⟩ := slotReg_cases r.op2
      · simp [decodeRRI, b1, b2, e1, e2, henc a b r.imm, ha, hb]
      · simp [decodeRRI, b2, e1, e2]
    · simp [decodeRRI, b1, e1]
  | regRegReg mk =>
    rw [hform] at henc
    obtain ⟨b1, a, ha, e1⟩ | ⟨b1, e1⟩ := slotReg_cases r.op1
    · obtain ⟨b2, b, hb, e2⟩ | ⟨b2, e2⟩ := slotReg_cases r.op2
      · obtain ⟨b3, c, hc, e3⟩ | ⟨b3, e3⟩ := slotReg_cases r.op3
        · simp [decodeRRR, b1, b2, b3, e1, e2, e3, henc a b c, ha, hb, hc]
        · simp [decodeRRR, b3, e1, e2, e3]
      · simp [decodeRRR, b2, e1, e2]
    · simp [decodeRRR, b1, e1]

/-- Settles O2, by the decoder's cases: the one that answers an instruction says what the encoder makes of it. -/
theorem decodedRecordReencodes : Obligations.DecodedRecordReencodes := by
  intro r i h
  obtain ⟨-, herr⟩ | ⟨-, -, herr⟩ | ⟨-, -, j, hok, henc⟩ := decodeRecord_cases r
  · rw [herr] at h
    cases h
  · rw [herr] at h
    cases h
  · rw [hok] at h
    cases h
    exact henc

/-- Settles O4: the decoder's three cases are the three clauses. -/
theorem decoderVerdict : Obligations.DecoderVerdict := by
  intro r
  obtain ⟨hillegal, herr⟩ | ⟨hlegal, hbad, herr⟩ | ⟨hlegal, hgood, i, hok, -⟩ := decodeRecord_cases r
  · exact ⟨fun _ => herr, fun hlegal => absurd hlegal hillegal, fun hlegal => absurd hlegal hillegal⟩
  · exact ⟨fun hillegal => absurd hlegal hillegal, fun _ _ => herr, fun _ hgood => absurd hbad hgood⟩
  · exact ⟨fun hillegal => absurd hlegal hillegal, fun _ hbad => absurd hbad hgood, fun _ _ => ⟨i, hok⟩⟩

/-- Settles O5: the records have the same form, and what a form reads of them is the same. -/
theorem dontCareFieldsHaveNoEffect : Obligations.DontCareFieldsHaveNoEffect := by
  intro r r' hop h1 h2 h3 himm
  obtain ⟨-, hop1, hop2, hop3, hdrop⟩ := formOf_lists r.opcode
  rw [hop1] at h1
  rw [hop2] at h2
  rw [hop3] at h3
  rw [hdrop] at himm
  rw [decodeRecord_eq_decode_formOf, decodeRecord_eq_decode_formOf, hop]
  cases hform : formOf r.opcode with
  | illegal => rfl
  | imm => simp [himm, hform]
  | regImm => simp [decodeRI, h1, himm, hform]
  | regReg => simp [decodeRR, decodeRRI, h1, h2, hform]
  | regRegImm => simp [decodeRRI, h1, h2, himm, hform]
  | regRegReg => simp [decodeRRR, h1, h2, h3, hform]

/-! ## Records of the spec -/

/-- Settles O3, by running the decoder on each record. -/
theorem specRecordsDecode : Obligations.SpecRecordsDecode :=
  ⟨rfl, rfl, rfl, rfl, rfl, rfl, rfl, rfl, rfl, rfl, rfl, rfl, rfl, rfl, rfl, rfl, rfl, rfl, rfl, rfl, rfl⟩

end Sys2Proof.Proofs
end

section
/-! SUPPORT. 20_memory.md R50 and 60_exceptions.md R243 to R247: the invariant at reset, after a launch and over a step, half by half. -/

namespace Sys2Proof.Proofs

open Sys2Proof.Machine Sys2Proof.Claims

/-! ## Memory -/

/-- Execute keeps memory canonical and inside MEM_SIZE: only a store writes it, and it stores in bounds. -/
theorem exec_keeps_memOk {i : Instr} {s t : State} (h : exec i s = .next t) (hs : s.memOk) : t.memOk := by
  cases exec_effect h with
  | stores rs a n hi hb =>
    refine ⟨Memory.writeBytes_wf _ _ _ hs.1, fun c hc => ?_⟩
    obtain hold | ⟨-, hlt⟩ := Memory.mem_writeBytes hc
    · exact hs.2 c hold
    · rw [leBytes_length] at hlt
      exact Nat.lt_of_lt_of_le hlt hb
  | writes | faults | terminates | emits | reads | aborts | draws => exact hs

@[simp] theorem checkTerm_mem (s : State) : s.checkTerm.mem = s.mem := by
  rw [State.checkTerm_eq]
  split <;> rfl

@[simp] theorem checkTerm_toEnvironment (s : State) : s.checkTerm.toEnvironment = s.toEnvironment := by
  rw [State.checkTerm_eq]
  split <;> rfl

/-- The memory half of the invariant is kept by every step. -/
theorem step_keeps_memOk {s t : State} (h : step s = .next t) (hs : s.memOk) : t.memOk := by
  obtain ⟨-, ⟨-, rfl⟩ | ⟨-, ⟨f, -, rfl⟩ | ⟨i, u, -, hu, rfl⟩⟩⟩ := step_cases h
  · exact hs
  · exact hs
  · have hmem : u.memOk := exec_keeps_memOk hu hs
    simpa [State.memOk] using hmem

/-! ## The control registers -/

/-- What decode and execute find in the control registers: no signal, no fault recorded, PC past the record. -/
def FetchedControl (s : State) : Prop :=
  s.fsm = .running ∧ s.term = false ∧ s.faultKind = none ∧ s.faultAddr = 0 ∧ s.pc = s.startPc + 8

theorem fetched_control {s : State} (hs : s.controlOk) (hrun : s.fsm = .running) : FetchedControl s.fetched := by
  rw [State.controlOk, hrun] at hs
  obtain ⟨hterm, hkind, haddr⟩ := hs
  exact ⟨hrun, hterm, hkind, haddr, State.setPc_pc _ _⟩

/-- A fault of decode or execute, which find PC past the record, is recorded as 60_exceptions.md R245 says. -/
theorem takeFault_controlOk {s : State} {k : FaultKind} (hs : FetchedControl s) (hk : k ≠ .fetchOutOfBounds) :
    (s.takeFault k).controlOk := by
  obtain ⟨-, hterm, -, -, hpc⟩ := hs
  exact ⟨hterm, rfl, .inr ⟨⟨k, rfl, hk⟩, hpc⟩⟩

/-- A state that still runs with the signal down passes the termination check. -/
theorem checkTerm_of_term_false {s : State} (h : s.term = false) : s.checkTerm = s := by
  rw [State.checkTerm_eq, h]
  simp

/-- A state that still runs with the signal down and no fault recorded is as RUNNING asks. -/
theorem running_controlOk {s : State} (hrun : s.fsm = .running) (hterm : s.term = false) (hkind : s.faultKind = none)
    (haddr : s.faultAddr = 0) : s.checkTerm.controlOk := by
  rw [checkTerm_of_term_false hterm, State.controlOk, hrun]
  exact ⟨hterm, hkind, haddr⟩

/-- Execute and the termination check leave the control registers as their control state says. -/
theorem exec_controlOk {i : Instr} {s u : State} (hs : FetchedControl s) (h : exec i s = .next u) :
    u.checkTerm.controlOk := by
  have ⟨hrun, hterm, hkind, haddr, hpc⟩ := hs
  cases exec_effect h with
  | writes | stores | emits | reads | draws =>
    exact running_controlOk hrun hterm hkind haddr
  | faults k hk => exact takeFault_controlOk hs hk
  | terminates =>
    have hstill : s.raiseTerm.fsm = .running := hrun
    rw [checkTerm_of_running hstill]
    exact ⟨rfl, hkind, haddr, hpc⟩
  | aborts => exact ⟨hterm, hkind, haddr, hpc⟩

/-- The control half of the invariant is kept by every step. -/
theorem step_keeps_controlOk {s t : State} (h : step s = .next t) (hs : s.controlOk) : t.controlOk := by
  obtain ⟨hrun, hcases⟩ := step_cases h
  have hf := fetched_control hs hrun
  obtain ⟨-, rfl⟩ | ⟨-, ⟨f, -, rfl⟩ | ⟨i, u, -, hu, rfl⟩⟩ := hcases
  · obtain ⟨-, hterm, -, -, -⟩ := hf
    exact ⟨hterm, rfl, .inl ⟨rfl, rfl⟩⟩
  · exact takeFault_controlOk hf (by cases f <;> decide)
  · exact exec_controlOk hf hu

/-- Settles O19: a step keeps each half of the invariant. -/
theorem stepKeepsInvariant : Obligations.StepKeepsInvariant :=
  fun _ _ hs h => ⟨step_keeps_memOk h hs.1, step_keeps_controlOk h hs.2⟩

/-! ## Where runs begin -/

/-- Settles O20: zeroed memory lists nothing, and the control registers are at their reset values. -/
theorem resetSatisfiesInvariant : Obligations.ResetSatisfiesInvariant :=
  ⟨⟨⟨List.Pairwise.nil, by simp [State.reset]⟩, by simp [State.reset]⟩, rfl, rfl, rfl⟩

/-- An image that fits into memory, copied to offset 0, leaves memory canonical and inside MEM_SIZE. -/
theorem launchedState_memOk {n : Word} {image : List Byte} (h : image.length ≤ n.toNat) :
    (launchedState n image).memOk := by
  refine ⟨Memory.writeBytes_wf _ _ _ ⟨List.Pairwise.nil, by simp⟩, fun c hc => ?_⟩
  obtain hnil | ⟨-, hlt⟩ := Memory.mem_writeBytes hc
  · cases hnil
  · rw [launchedState_memSize]
    omega

/-- Settles O21: a launch that starts has an image that fits, and its control registers are those of reset. -/
theorem launchSatisfiesInvariant : Obligations.LaunchSatisfiesInvariant := by
  intro n image s h
  obtain ⟨bytes, -, hsize, -, -, hfits, rfl⟩ := launch_ready h
  refine ⟨launchedState_memOk ?_, rfl, rfl, rfl⟩
  rwa [BitVec.toNat_ofNat, Nat.mod_eq_of_lt hsize]

end Sys2Proof.Proofs
end

section
/-! SUPPORT. 60_exceptions.md section 2 and 45_trap.md R222: a step as execute of the fetched instruction, when it holds for input, and what lifts the hold. -/

namespace Sys2Proof.Proofs

open Sys2Proof.Machine Sys2Proof.Claims

/-! ## The step of a fetched instruction -/

/-- A running machine's step stops exactly where execute of the fetched instruction stops. -/
theorem step_fault_iff_fetches {s : State} {f : Fault} (hrun : s.fsm = .running) :
    step s = .fault f ↔ ∃ i, Fetches s i ∧ exec i (afterFetch s) = .fault f := by
  simp only [step_fault_iff hrun, Fetches, CanFetch, hrun, true_and, recordAt_eq_recordAtPc, afterFetch_eq_fetched]
  tauto

/-- Settles O9: execute's answer goes through the termination check, its stop is the step's, and it refuses nothing. -/
theorem stepRunsDecodedInstruction : Obligations.StepRunsDecodedInstruction := by
  intro s i hf
  refine ⟨fun t he => ?next, fun f he => ?stop, exec_ne_refused i _⟩
  case next => rw [step_of_exec_next hf he, State.checkTerm_eq]
  case stop => exact (step_fault_iff_fetches hf.1.1).mpr ⟨i, hf, he⟩

theorem step_of_canFetch {s : State} (h : CanFetch s) : step s = runFetched s.fetched := by
  rw [step_running s h.1, cycle_eq, if_pos h.2]

/-- Settles O10: a fetch that fits writes the IR whole, so the fetched state has no trace of the old one. -/
theorem oldIrHasNoEffect : Obligations.OldIrHasNoEffect := by
  intro s r h
  have h' : CanFetch { s with ir := r } := h
  have hfetched : State.fetched { s with ir := r } = s.fetched := rfl
  rw [step_of_canFetch h, step_of_canFetch h', hfetched]

/-- Settles O11: a step looks at the control state first. -/
theorem terminalStatesHalt : Obligations.TerminalStatesHalt := step_terminal

/-! ## The input hold -/

/-- A running machine steps unless it holds (45_trap.md R222). -/
theorem step_next_or_hold {s : State} (hrun : s.fsm = .running) :
    (∃ t, step s = .next t) ∨ step s = .fault .inputHold := by
  cases hstep : step s with
  | next t => exact .inl ⟨t, rfl⟩
  | fault f =>
    obtain ⟨i, -, hexec⟩ := (step_fault_iff_fetches hrun).mp hstep
    rw [(exec_fault_iff.mp hexec).1]
    exact .inr rfl
  | refused r => exact absurd hstep (step_ne_refused s r)

/-- A running machine holds exactly in a TRP 2 or TRP 4 whose input is not there (45_trap.md R222). -/
theorem step_hold_iff {s : State} (hrun : s.fsm = .running) :
    step s = .fault .inputHold ↔ s.input.ended = false ∧
      (Fetches s (.trp 2) ∧ 0x0A#8 ∉ s.input.pending ∨ Fetches s (.trp 4) ∧ s.input.pending = []) := by
  have hinput : (afterFetch s).input = s.input := rfl
  simp only [step_fault_iff_fetches hrun, exec_fault_iff, hinput, true_and]
  constructor
  · rintro ⟨i, hf, hend, ⟨rfl, hline⟩ | ⟨rfl, hchar⟩⟩
    · exact ⟨hend, .inl ⟨hf, hline⟩⟩
    · exact ⟨hend, .inr ⟨hf, hchar⟩⟩
  · rintro ⟨hend, ⟨hf, hline⟩ | ⟨hf, hchar⟩⟩
    · exact ⟨_, hf, hend, .inl ⟨rfl, hline⟩⟩
    · exact ⟨_, hf, hend, .inr ⟨rfl, hchar⟩⟩

/-- Settles O12: a step does not refuse, and it stops only in the input hold. -/
theorem runningStepsOrHolds : Obligations.RunningStepsOrHolds :=
  fun _ hrun => ⟨step_next_or_hold hrun, step_hold_iff hrun⟩

/-- A running machine that does not hold steps. -/
theorem step_next_of_not_hold {s : State} (hrun : s.fsm = .running) (h : step s ≠ .fault .inputHold) :
    ∃ t, step s = .next t :=
  (step_next_or_hold hrun).resolve_right h

/-- A machine that holds is running. -/
theorem running_of_hold {s : State} (h : step s = .fault .inputHold) : s.fsm = .running := by
  by_contra hrun
  rw [step_terminal s hrun] at h
  cases h

theorem fetches_unique {s : State} {i j : Instr} (hi : Fetches s i) (hj : Fetches s j) : i = j :=
  Except.ok.inj (hi.2.symm.trans hj.2)

/-- The host's supply of input leaves the record at PC as it was. -/
theorem fetches_supply {s : State} {bs : List Byte} {i : Instr} : Fetches (s.supply bs) i ↔ Fetches s i := Iff.rfl

/-- Settles O13: the host's move leaves the machine running, and the input it brings fails the condition of the hold. -/
theorem supplyLiftsTheHold : Obligations.SupplyLiftsTheHold := by
  intro s h
  have hrun : s.fsm = .running := running_of_hold h
  have hrunEnd : s.endInput.fsm = .running := hrun
  have hrunSupply (bs : List Byte) : (s.supply bs).fsm = .running := hrun
  refine ⟨?endInput, fun bs hbs => ?line, fun h4 bs hbs => ?char⟩
  case endInput =>
    refine step_next_of_not_hold hrunEnd fun hold => ?_
    exact Bool.noConfusion ((step_hold_iff hrunEnd).mp hold).1
  case line =>
    refine step_next_of_not_hold (hrunSupply bs) fun hold => ?_
    have hmem : 0x0A#8 ∈ (s.supply bs).input.pending := List.mem_append_right _ hbs
    obtain ⟨-, ⟨-, hline⟩ | ⟨-, hchar⟩⟩ := (step_hold_iff (hrunSupply bs)).mp hold
    · exact hline hmem
    · exact List.ne_nil_of_mem hmem hchar
  case char =>
    refine step_next_of_not_hold (hrunSupply bs) fun hold => ?_
    obtain ⟨-, ⟨h2, -⟩ | ⟨-, hchar⟩⟩ := (step_hold_iff (hrunSupply bs)).mp hold
    · cases fetches_unique (fetches_supply.mp h2) h4
    · exact hbs (List.append_eq_nil_iff.mp hchar).2

end Sys2Proof.Proofs
end

section
/-! SUPPORT. Execute of each instruction as the shared operation it calls, and everything the traps that read input can do (45_trap.md R216, R218, R222). -/

namespace Sys2Proof.Proofs

open Sys2Proof.Machine

/-! ## The shared operation of each instruction -/

section dispatch

variable (rd rs rs1 rs2 : RegIdx) (v : Word) (s : State)

theorem exec_jmp : exec (.jmp v) s = execJmp v s := rfl
theorem exec_mov : exec (.mov rd rs) s = .next (s.setReg rd (s.reg rs)) := rfl
theorem exec_movi : exec (.movi rd v) s = .next (s.setReg rd v) := rfl
theorem exec_lda : exec (.lda rd v) s = load 4 rd v s := rfl
theorem exec_str : exec (.str rs v) s = store 4 rs v s := rfl
theorem exec_ldr : exec (.ldr rd v) s = load 4 rd v s := rfl
theorem exec_stb : exec (.stb rs v) s = store 1 rs v s := rfl
theorem exec_ldb : exec (.ldb rd v) s = load 1 rd v s := rfl
theorem exec_add : exec (.add rd rs1 rs2) s = .next (s.setReg rd (s.reg rs1 + s.reg rs2)) :=
  arith_of_some rd (alu_add _ _)
theorem exec_addi : exec (.addi rd rs v) s = .next (s.setReg rd (s.reg rs + v)) := arith_of_some rd (alu_add _ _)
theorem exec_sub : exec (.sub rd rs1 rs2) s = .next (s.setReg rd (s.reg rs1 - s.reg rs2)) :=
  arith_of_some rd (alu_sub _ _)
theorem exec_subi : exec (.subi rd rs v) s = .next (s.setReg rd (s.reg rs - v)) := arith_of_some rd (alu_sub _ _)
theorem exec_mul : exec (.mul rd rs1 rs2) s = .next (s.setReg rd (s.reg rs1 * s.reg rs2)) :=
  arith_of_some rd (alu_mul _ _)
theorem exec_muli : exec (.muli rd rs v) s = .next (s.setReg rd (s.reg rs * v)) := arith_of_some rd (alu_mul _ _)
theorem exec_trp_one : exec (.trp 1) s = .next (s.emit (sdecimal (s.reg .r3).toInt)) := rfl
theorem exec_trp_two : exec (.trp 2) s = trapReadInt s := rfl
theorem exec_trp_four : exec (.trp 4) s = trapReadChar s := rfl
theorem exec_trp_ninetyEight : exec (.trp 98) s = .next (s.emit (dumpText s)) := rfl

end dispatch

/-! ## The traps that read input -/

theorem trapReadInt_of_value {s : State} {line : List Byte} {rest : HostInput} {v : Int}
    (hl : s.input.takeLine = some (line, rest)) (hv : parseInt line = some v) :
    trapReadInt s = .next ((s.setInput rest).setReg .r3 (BitVec.ofInt 32 v)) := by
  simp only [trapReadInt, hl, hv]

theorem trapReadInt_of_no_value {s : State} {line : List Byte} {rest : HostInput}
    (hl : s.input.takeLine = some (line, rest)) (hv : parseInt line = none) :
    trapReadInt s = .next (s.setInput rest).hostAbort := by
  simp only [trapReadInt, hl, hv]

/-- Everything TRP 2 can do. -/
theorem trapReadInt_cases (s : State) :
    (s.input.takeLine = none ∧ trapReadInt s = .fault .inputHold) ∨
    ∃ line rest, s.input.takeLine = some (line, rest) ∧
      ((∃ v, parseInt line = some v ∧ trapReadInt s = .next ((s.setInput rest).setReg .r3 (BitVec.ofInt 32 v))) ∨
       (parseInt line = none ∧ trapReadInt s = .next (s.setInput rest).hostAbort)) := by
  cases hl : s.input.takeLine with
  | none => exact .inl ⟨rfl, by simp only [trapReadInt, hl]⟩
  | some p =>
    obtain ⟨line, rest⟩ := p
    refine .inr ⟨line, rest, rfl, ?_⟩
    cases hv : parseInt line with
    | none => exact .inr ⟨rfl, trapReadInt_of_no_value hl hv⟩
    | some v => exact .inl ⟨v, rfl, trapReadInt_of_value hl hv⟩

theorem trapReadChar_of_byte {s : State} {b : Byte} {rest : List Byte} (hp : s.input.pending = b :: rest) :
    trapReadChar s =
      .next ((s.setInput ⟨rest, s.input.ended, s.input.consumed ++ [b]⟩).setReg .r3 (b.setWidth 32)) := by
  rw [trapReadChar, HostInput.takeChar, hp]

theorem trapReadChar_of_ended {s : State} (hp : s.input.pending = []) (hend : s.input.ended = true) :
    trapReadChar s = .next (s.drawEofValue.2.setReg .r3 s.drawEofValue.1) := by
  rw [trapReadChar, HostInput.takeChar, hp, hend]
  rfl

/-- Everything TRP 4 can do. -/
theorem trapReadChar_cases (s : State) :
    (s.input.pending = [] ∧ s.input.ended = false ∧ trapReadChar s = .fault .inputHold) ∨
    (∃ b rest, s.input.pending = b :: rest ∧ trapReadChar s =
      .next ((s.setInput ⟨rest, s.input.ended, s.input.consumed ++ [b]⟩).setReg .r3 (b.setWidth 32))) ∨
    (s.input.pending = [] ∧ s.input.ended = true ∧
      trapReadChar s = .next (s.drawEofValue.2.setReg .r3 s.drawEofValue.1)) := by
  cases hp : s.input.pending with
  | cons b rest => exact .inr (.inl ⟨b, rest, rfl, trapReadChar_of_byte hp⟩)
  | nil =>
    cases hend : s.input.ended with
    | false => exact .inl ⟨rfl, rfl, trapReadChar_fault.mpr ⟨rfl, hend, hp⟩⟩
    | true => exact .inr (.inr ⟨rfl, rfl, trapReadChar_of_ended hp hend⟩)

end Sys2Proof.Proofs
end

section
/-! SUPPORT. 60_exceptions.md R241 to R250 and 45_trap.md R221: which operands fault in execute, what a faulting cycle leaves, and what every step leaves of the host's streams. -/

namespace Sys2Proof.Proofs

open Sys2Proof.Machine Sys2Proof.Claims

/-! ## Which operands fault -/

/-- The answer of execute in `s` enters FAULTED exactly when `fault` names a kind, and then writes nothing else. -/
def FaultsExactly (s : State) (fault : Option FaultKind) (answer : Result) : Prop :=
  (∀ k, fault = some k → answer = .next (faulted s k)) ∧ (fault = none → ∀ t, answer = .next t → t.fsm ≠ .faulted)

theorem faultsExactly_some (s : State) (k : FaultKind) : FaultsExactly s (some k) (.next (s.takeFault k)) := by
  refine ⟨fun k' hk => ?_, nofun⟩
  cases hk
  rfl

theorem faultsExactly_none {s t : State} (ht : t.fsm ≠ .faulted) : FaultsExactly s none (.next t) := by
  refine ⟨nofun, fun _ u hu => ?_⟩
  cases hu
  exact ht

theorem faultsExactly_stop (s : State) (f : Fault) : FaultsExactly s none (.fault f) := ⟨nofun, fun _ _ => nofun⟩

/-- An answer that checks a bound and takes the fault where it fails. -/
theorem faultsExactly_ite {s t : State} {c : Prop} [Decidable c] {k : FaultKind} (ht : t.fsm ≠ .faulted) :
    FaultsExactly s (if c then none else some k) (.next (if c then t else s.takeFault k)) := by
  split
  · exact faultsExactly_none ht
  · exact faultsExactly_some s k

/-- A division faults exactly on a zero divisor (44_arithmetic.md R180). -/
theorem arith_division_faultsExactly {s : State} {op : AluOp} (hop : op = .divu ∨ op = .divs) (rd rs : RegIdx)
    (src : Source) (hs : s.fsm ≠ .faulted) :
    FaultsExactly s (if src.value s = 0 then some .divideByZero else none) (arith op rd rs src s) := by
  by_cases hzero : src.value s = 0
  · have hnone : alu op (s.reg rs) (src.value s) = none := by
      rw [hzero]
      rcases hop with rfl | rfl <;> rfl
    rw [if_pos hzero, arith_of_none rd hnone]
    exact faultsExactly_some s _
  · obtain ⟨y, hy⟩ : ∃ y, alu op (s.reg rs) (src.value s) = some y := by
      rcases hop with rfl | rfl
      · exact ⟨_, alu_divu_of_ne hzero⟩
      · exact ⟨_, alu_divs_of_ne hzero⟩
    rw [if_neg hzero, arith_of_some rd hy]
    exact faultsExactly_none hs

theorem trapReadInt_faultsExactly {s : State} (hs : s.fsm ≠ .faulted) : FaultsExactly s none (trapReadInt s) := by
  obtain ⟨-, e⟩ | ⟨line, rest, -, ⟨v, -, e⟩ | ⟨-, e⟩⟩ := trapReadInt_cases s <;> rw [e]
  · exact faultsExactly_stop s _
  · exact faultsExactly_none hs
  · exact faultsExactly_none Fsm.noConfusion

theorem trapReadChar_faultsExactly {s : State} (hs : s.fsm ≠ .faulted) : FaultsExactly s none (trapReadChar s) := by
  obtain ⟨-, -, e⟩ | ⟨b, rest, -, e⟩ | ⟨-, -, e⟩ := trapReadChar_cases s <;> rw [e]
  · exact faultsExactly_stop s _
  · exact faultsExactly_none hs
  · exact faultsExactly_none hs

/-- Only a code without a trap faults in TRP (45_trap.md R223). -/
theorem execTrp_faultsExactly (code : Word) {s : State} (hs : s.fsm ≠ .faulted) :
    FaultsExactly s (if code ∈ [0, 1, 2, 3, 4, 98] then none else some .invalidTrapCode) (execTrp code s) := by
  obtain ⟨rfl, e⟩ | ⟨rfl, e⟩ | ⟨rfl, e⟩ | ⟨rfl, e⟩ | ⟨rfl, e⟩ | ⟨rfl, e⟩ | ⟨hcode, e⟩ := execTrp_cases code s <;>
    rw [e]
  · exact faultsExactly_none hs
  · exact faultsExactly_none hs
  · exact trapReadInt_faultsExactly hs
  · exact faultsExactly_none hs
  · exact trapReadChar_faultsExactly hs
  · exact faultsExactly_none hs
  · rw [if_neg hcode]
    exact faultsExactly_some s _

/-- Settles O14, an instruction at a time. -/
theorem executeFaultsExactlyWhen : Obligations.ExecuteFaultsExactlyWhen := by
  intro i s hrun
  have hs : s.fsm ≠ .faulted := by rw [hrun]; decide
  show FaultsExactly s (executeFault i s) (exec i s)
  cases i with
  | jmp target =>
    rw [exec_jmp, execJmp_eq]
    exact faultsExactly_ite hs
  | mov | movi => exact faultsExactly_none hs
  | lda | ldr | ldb =>
    simp only [exec_lda, exec_ldr, exec_ldb, load_eq]
    exact faultsExactly_ite hs
  | str | stb =>
    simp only [exec_str, exec_stb, store_eq]
    exact faultsExactly_ite hs
  | add | addi | sub | subi | mul | muli => exact faultsExactly_none hs
  | div rd rs1 rs2 => exact arith_division_faultsExactly (.inl rfl) rd rs1 (.reg rs2) hs
  | sdiv rd rs1 rs2 => exact arith_division_faultsExactly (.inr rfl) rd rs1 (.reg rs2) hs
  | divi rd rs imm => exact arith_division_faultsExactly (.inl rfl) rd rs (.imm imm) hs
  | trp code => exact execTrp_faultsExactly code hs

/-! ## The faulting cycle -/

/-- A termination check never enters FAULTED. -/
theorem checkTerm_faulted {s : State} (h : s.checkTerm.fsm = .faulted) : s.fsm = .faulted := by
  rw [State.checkTerm_eq] at h
  split at h
  · cases h
  · exact h

/-- Everything a cycle that enters FAULTED can have done: the fetch faulted, or decode or execute took a fault in the
fetched state. -/
theorem step_to_faulted {s t : State} (h : step s = .next t) (ht : t.fsm = .faulted) :
    (s.memSize.toNat < s.pc.toNat + 8 ∧ t = s.latchStart.takeFault .fetchOutOfBounds) ∨
    (s.pc.toNat + 8 ≤ s.memSize.toNat ∧ ∃ k, k ≠ .fetchOutOfBounds ∧ t = (afterFetch s).takeFault k) := by
  rw [afterFetch_eq_fetched]
  obtain ⟨hrun, ⟨hover, rfl⟩ | ⟨hfits, ⟨f, -, rfl⟩ | ⟨i, u, -, hu, rfl⟩⟩⟩ := step_cases h
  · exact .inl ⟨hover, rfl⟩
  · exact .inr ⟨hfits, kindOfDecode f, by cases f <;> decide, rfl⟩
  · obtain ⟨k, hk, rfl⟩ := exec_to_faulted (s := s.fetched) hrun hu (checkTerm_faulted ht)
    exact .inr ⟨hfits, k, hk, checkTerm_takeFault _ _⟩

/-- Fetch writes PC and no other register. -/
theorem afterFetch_reg_other (s : State) {r : RegIdx} (h : r ≠ .pc) : (afterFetch s).reg r = s.reg r := by
  rw [afterFetch_eq_fetched]
  exact State.setPc_reg_other _ _ h

/-- Under lawful statuses every other outcome is told apart from a success (60_exceptions.md R250). -/
theorem lawful_ne_success {h : Config.HostReport} (hl : h.Lawful) {e : Config.ExitOutcome} (he : e ≠ .success) :
    h.exitStatus e ≠ h.successValue := by
  obtain ⟨hinj, -, hsuccess⟩ := hl
  rw [← hsuccess]
  exact hinj.ne he

/-- Settles O16: in both cases of a faulting cycle the state is one that took a fault, before or after the fetch. -/
theorem faultedStateIsPrecise : Obligations.FaultedStateIsPrecise := by
  intro s t _ h ht
  have hstatus (r : Config.HostReport) (hl : r.Lawful) : some (r.exitStatus .fault) = some (r.exitStatus .fault) ∧
      r.exitStatus .fault ≠ 0 ∧ r.exitStatus .fault ≠ r.successValue :=
    ⟨rfl, hl.2.1, lawful_ne_success hl (by decide)⟩
  obtain ⟨hover, rfl⟩ | ⟨hfits, k, hk, rfl⟩ := step_to_faulted h ht
  · exact ⟨rfl, rfl, .inl ⟨rfl, hover, rfl, rfl⟩, fun _ _ => rfl, rfl, rfl, rfl, rfl, rfl, rfl, rfl, fun _ => Iff.rfl,
      fun r => ⟨rfl, hstatus r⟩⟩
  · exact ⟨rfl, rfl, .inr ⟨⟨k, rfl, hk⟩, hfits, afterFetch_pc s, rfl⟩, fun r hr => afterFetch_reg_other s hr, rfl, rfl,
      rfl, rfl, rfl, rfl, rfl, fun _ => Iff.rfl, fun r => ⟨rfl, hstatus r⟩⟩

/-! ## The host's streams -/

/-- From `s` to `t` output is added at the end and input is taken from the front, and nothing else of the host's
streams changes (45_trap.md R220, R221). -/
def KeepsHistory (s t : State) : Prop :=
  s.out <+: t.out ∧ t.input.consumed ++ t.input.pending = s.input.consumed ++ s.input.pending ∧
  s.input.consumed <+: t.input.consumed ∧ t.input.ended = s.input.ended ∧ t.memSize = s.memSize

theorem keepsHistory_of_eq {s t : State} (hout : t.out = s.out) (henv : t.toEnvironment = s.toEnvironment) :
    KeepsHistory s t := by
  simp [KeepsHistory, hout, henv]

theorem exec_keepsHistory {i : Instr} {s t : State} (h : exec i s = .next t) : KeepsHistory s t := by
  cases exec_effect h with
  | writes | stores | faults | terminates => exact keepsHistory_of_eq rfl rfl
  | emits bs => exact ⟨List.prefix_append _ _, rfl, List.prefix_rfl, rfl, rfl⟩
  | reads h' v hi hh =>
    obtain ⟨hbytes, hconsumed, hended⟩ := hh
    exact ⟨List.prefix_rfl, hbytes, hconsumed, hended, rfl⟩
  | aborts h' hi hh =>
    obtain ⟨hbytes, hconsumed, hended⟩ := hh
    exact ⟨List.prefix_rfl, hbytes, hconsumed, hended, rfl⟩
  | draws => exact ⟨List.prefix_rfl, rfl, List.prefix_rfl, rfl, rfl⟩

@[simp] theorem checkTerm_out (s : State) : s.checkTerm.out = s.out := by
  rw [State.checkTerm_eq]
  split <;> rfl

/-- Settles O22: a fault touches no stream, and execute keeps the history. -/
theorem stepKeepsHistory : Obligations.StepKeepsHistory := by
  intro s t h
  show KeepsHistory s t
  obtain ⟨-, ⟨-, rfl⟩ | ⟨-, ⟨f, -, rfl⟩ | ⟨i, u, -, hu, rfl⟩⟩⟩ := step_cases h
  · exact keepsHistory_of_eq rfl rfl
  · exact keepsHistory_of_eq rfl rfl
  · have hexec : KeepsHistory s u := exec_keepsHistory (s := s.fetched) hu
    simpa [KeepsHistory] using hexec

/-! ## The frame of execute -/

/-- Settles O24, by the effects of execute. -/
theorem executeFrame : Obligations.ExecuteFrame := by
  intro i s t hwf h
  cases exec_effect h with
  | writes rd v hi ht =>
    refine ⟨fun r hr => ?_, fun _ _ => rfl, rfl, rfl, rfl, fun _ => ⟨rfl, rfl, rfl, rfl⟩⟩
    exact State.setReg_reg_other _ _ (by rintro rfl; exact hr hi)
  | stores rs a n hi hb =>
    refine ⟨fun _ _ => rfl, fun b hout => ?_, rfl, rfl, rfl, fun _ => ⟨rfl, rfl, rfl, rfl⟩⟩
    refine Memory.read_writeBytes_outside _ _ _ _ hwf ?_
    rw [leBytes_length]
    rcases hi with ⟨rfl, rfl⟩ | ⟨rfl, rfl⟩ <;> exact hout
  | faults => exact ⟨fun _ _ => rfl, fun _ _ => rfl, rfl, rfl, rfl, fun _ => ⟨rfl, rfl, rfl, rfl⟩⟩
  | terminates hi =>
    exact ⟨fun _ _ => rfl, fun _ _ => rfl, rfl, rfl, rfl, fun hn => by subst hi; cases hn⟩
  | emits bs hi =>
    refine ⟨fun _ _ => rfl, fun _ _ => rfl, rfl, rfl, rfl, fun hn => ?_⟩
    rcases hi with rfl | rfl | rfl <;> cases hn
  | reads h' v hi =>
    refine ⟨fun r hr => State.setReg_reg_other _ _ ?_, fun _ _ => rfl, rfl, rfl, rfl, fun hn => ?_⟩
    · rintro rfl
      rcases hi with rfl | rfl <;> exact hr rfl
    · rcases hi with rfl | rfl <;> cases hn
  | aborts h' hi =>
    exact ⟨fun _ _ => rfl, fun _ _ => rfl, rfl, rfl, rfl, fun hn => by subst hi; cases hn⟩
  | draws hi =>
    subst hi
    refine ⟨fun r hr => State.setReg_reg_other _ _ ?_, fun _ _ => rfl, rfl, rfl, rfl, fun hn => by cases hn⟩
    rintro rfl
    exact hr rfl

end Sys2Proof.Proofs
end

section
/-! SUPPORT. What an instruction does not see (10_state.md R36, 45_trap.md R220): execute and a step on two states that differ only in such a part answer in lockstep. -/

namespace Sys2Proof.Proofs

open Sys2Proof.Machine Sys2Proof.Claims

/-! ## Lockstep -/

/-- Both answers are next states that `R` relates, or both are the same stop. -/
inductive Lockstep (R : State → State → Prop) : Result → Result → Prop
  | next {t t' : State} (h : R t t') : Lockstep R (.next t) (.next t')
  | fault (f : Fault) : Lockstep R (.fault f) (.fault f)
  | refused (f : Refusal) : Lockstep R (.refused f) (.refused f)

section Lockstep

variable {R : State → State → Prop} {o : Result}

theorem Lockstep.of_next {t : State} (h : Lockstep R (.next t) o) : ∃ t', o = .next t' ∧ R t t' := by
  cases h with
  | next h => exact ⟨_, rfl, h⟩

theorem Lockstep.of_fault {f : Fault} (h : Lockstep R (.fault f) o) : o = .fault f := by
  cases h
  rfl

end Lockstep

/-- The states `s` and `s'` agree on what `i` reads, and what `i` can do to them leads to states that `R` relates. -/
structure Unseen (R : State → State → Prop) (i : Instr) (s s' : State) : Prop where
  memSize : s'.memSize = s.memSize
  mem : s'.mem = s.mem
  reg : ∀ r ∈ namedRegs i, s'.reg r = s.reg r
  setReg : ∀ r ∈ namedRegs i, ∀ v, R (s.setReg r v) (s'.setReg r v)
  writeMem : ∀ m, R { s with mem := m } { s' with mem := m }
  takeFault : ∀ k, R (s.takeFault k) (s'.takeFault k)
  emit : ∀ bs, R (s.emit bs) (s'.emit bs)
  raiseTerm : R s.raiseTerm s'.raiseTerm
  readInt : i = .trp 2 → Lockstep R (trapReadInt s) (trapReadInt s')
  readChar : i = .trp 4 → Lockstep R (trapReadChar s) (trapReadChar s')

section exec

variable {R : State → State → Prop} {i : Instr} {s s' : State} (h : Unseen R i s s')

include h

theorem Unseen.load {n : Nat} {rd : RegIdx} (hrd : rd ∈ namedRegs i) (a : Word) :
    Lockstep R (load n rd a s) (load n rd a s') := by
  rw [load_eq, load_eq, h.memSize, h.mem]
  split
  · exact .next (h.setReg rd hrd _)
  · exact .next (h.takeFault _)

theorem Unseen.store {n : Nat} {rs : RegIdx} (hrs : rs ∈ namedRegs i) (a : Word) :
    Lockstep R (store n rs a s) (store n rs a s') := by
  rw [store_eq, store_eq, h.memSize, h.mem, h.reg rs hrs]
  split
  · exact .next (h.writeMem _)
  · exact .next (h.takeFault _)

theorem Unseen.arith {op : AluOp} {rd rs : RegIdx} {src : Source} (hrd : rd ∈ namedRegs i) (hrs : rs ∈ namedRegs i)
    (hsrc : src.value s' = src.value s) : Lockstep R (arith op rd rs src s) (arith op rd rs src s') := by
  obtain ⟨y, hy, e⟩ | ⟨hnone, e⟩ := arith_cases op rd rs src s
  · rw [e, arith_of_some rd (by rw [h.reg rs hrs, hsrc, hy])]
    exact .next (h.setReg rd hrd y)
  · rw [e, arith_of_none rd (by rw [h.reg rs hrs, hsrc, hnone])]
    exact .next (h.takeFault _)

theorem Unseen.arithReg {op : AluOp} {rd rs1 rs2 : RegIdx} (hi : namedRegs i = [rd, rs1, rs2]) :
    Lockstep R (Machine.arith op rd rs1 (.reg rs2) s) (Machine.arith op rd rs1 (.reg rs2) s') :=
  h.arith (by simp [hi]) (by simp [hi]) (h.reg rs2 (by simp [hi]))

theorem Unseen.arithImm {op : AluOp} {rd rs : RegIdx} (hi : namedRegs i = [rd, rs]) (v : Word) :
    Lockstep R (Machine.arith op rd rs (.imm v) s) (Machine.arith op rd rs (.imm v) s') :=
  h.arith (by simp [hi]) (by simp [hi]) rfl

end exec

theorem Unseen.dumpText {R : State → State → Prop} {s s' : State} (h : Unseen R (.trp 98) s s') :
    dumpText s' = dumpText s := by
  have hline (r : RegIdx) : dumpLine s' r = dumpLine s r := by
    rw [dumpLine, dumpLine, h.reg r (by simp [namedRegs])]
  rw [Machine.dumpText, Machine.dumpText, funext hline]

theorem Unseen.trap {R : State → State → Prop} {code : Word} {s s' : State} (h : Unseen R (.trp code) s s') :
    Lockstep R (exec (.trp code) s) (exec (.trp code) s') := by
  by_cases hcode : code ∈ [0, 1, 2, 3, 4, 98]
  · simp only [List.mem_cons, List.not_mem_nil, or_false] at hcode
    rcases hcode with rfl | rfl | rfl | rfl | rfl | rfl
    · exact .next h.raiseTerm
    · rw [exec_trp_one, exec_trp_one, h.reg .r3 (by decide)]
      exact .next (h.emit _)
    · exact h.readInt rfl
    · rw [exec_trp_three, exec_trp_three, trapWriteChar, trapWriteChar, h.reg .r3 (by decide)]
      exact .next (h.emit _)
    · exact h.readChar rfl
    · rw [exec_trp_ninetyEight, exec_trp_ninetyEight, h.dumpText]
      exact .next (h.emit _)
  · rw [exec_trp_of_not_mem hcode, exec_trp_of_not_mem hcode]
    exact .next (h.takeFault _)

/-- Execute runs in lockstep on two states that agree on what the instruction reads. -/
theorem exec_lockstep {R : State → State → Prop} {i : Instr} {s s' : State} (h : Unseen R i s s') :
    Lockstep R (exec i s) (exec i s') := by
  cases i with
  | jmp a =>
    rw [exec_jmp, exec_jmp, execJmp_eq, execJmp_eq, h.memSize]
    split
    · exact .next (h.setReg .pc (by simp [namedRegs]) a)
    · exact .next (h.takeFault _)
  | mov rd rs =>
    rw [exec_mov, exec_mov, h.reg rs (by simp [namedRegs])]
    exact .next (h.setReg rd (by simp [namedRegs]) _)
  | movi rd v => exact .next (h.setReg rd (by simp [namedRegs]) v)
  | lda rd a | ldr rd a | ldb rd a => exact h.load (rd := rd) (by simp [namedRegs]) a
  | str rs a | stb rs a => exact h.store (rs := rs) (by simp [namedRegs]) a
  | add => exact h.arithReg (op := .add) rfl
  | addi => exact h.arithImm (op := .add) rfl _
  | sub => exact h.arithReg (op := .sub) rfl
  | subi => exact h.arithImm (op := .sub) rfl _
  | mul => exact h.arithReg (op := .mul) rfl
  | muli => exact h.arithImm (op := .mul) rfl _
  | div => exact h.arithReg (op := .divu) rfl
  | sdiv => exact h.arithReg (op := .divs) rfl
  | divi => exact h.arithImm (op := .divu) rfl _
  | trp code => exact h.trap

/-- What `R` asks of two states for a whole cycle to run in lockstep, beside what `Unseen` asks of the fetched
instruction. -/
structure UnseenByStep (R : State → State → Prop) (s s' : State) : Prop where
  fsm : s'.fsm = s.fsm
  pc : s'.pc = s.pc
  memSize : s'.memSize = s.memSize
  mem : s'.mem = s.mem
  fetchFault : R (s.latchStart.takeFault .fetchOutOfBounds) (s'.latchStart.takeFault .fetchOutOfBounds)
  decodeFault : ∀ k, R (s.fetched.takeFault k) (s'.fetched.takeFault k)
  checkTerm : ∀ t t', R t t' → R t.checkTerm t'.checkTerm
  fetched : ∀ i, Fetches s i → Unseen R i s.fetched s'.fetched

/-- A step runs in lockstep on two states that fetch the same record and agree on what its instruction reads. -/
theorem step_lockstep {R : State → State → Prop} {s s' : State} (h : UnseenByStep R s s') :
    Lockstep R (step s) (step s') := by
  by_cases hrun : s.fsm = .running
  · have hrecord : s'.recordAtPc = s.recordAtPc := by simp only [State.recordAtPc, h.mem, h.pc]
    have hir : s.fetched.ir = s.recordAtPc := rfl
    have hir' : s'.fetched.ir = s.recordAtPc := hrecord
    rw [step_running s hrun, step_running s' (h.fsm.trans hrun), cycle_eq, cycle_eq, h.pc, h.memSize]
    by_cases hfits : s.pc.toNat + 8 ≤ s.memSize.toNat
    · rw [if_pos hfits, if_pos hfits, runFetched, runFetched, hir, hir']
      cases hdec : decodeRecord s.recordAtPc with
      | error f => exact .next (h.decodeFault _)
      | ok i =>
        have hexec := exec_lockstep (h.fetched i ⟨⟨hrun, hfits⟩, by rw [recordAt_eq_recordAtPc, hdec]⟩)
        dsimp only
        generalize exec i s.fetched = o, exec i s'.fetched = o' at hexec
        cases hexec with
        | next hR => exact .next (h.checkTerm _ _ hR)
        | fault f => exact .fault f
        | refused f => exact .refused f
    · rw [if_neg hfits, if_neg hfits]
      exact .next h.fetchFault
  · rw [step_terminal s hrun, step_terminal s' (h.fsm ▸ hrun)]
    exact .fault _

/-! ## Input that both states share -/

section sharedInput

variable {R : State → State → Prop} {s s' : State}

theorem trapReadInt_lockstep (hin : s'.input = s.input)
    (hset : ∀ h v, R ((s.setInput h).setReg .r3 v) ((s'.setInput h).setReg .r3 v))
    (habort : ∀ h, R (s.setInput h).hostAbort (s'.setInput h).hostAbort) :
    Lockstep R (trapReadInt s) (trapReadInt s') := by
  rw [trapReadInt, trapReadInt, hin]
  cases s.input.takeLine with
  | none => exact .fault _
  | some p =>
    cases hv : parseInt p.1 with
    | none =>
      simp only [hv]
      exact .next (habort _)
    | some v =>
      simp only [hv]
      exact .next (hset _ _)

theorem trapReadChar_lockstep (hin : s'.input = s.input)
    (hset : ∀ h v, R ((s.setInput h).setReg .r3 v) ((s'.setInput h).setReg .r3 v))
    (hdraw : s.input.pending = [] →
      R (s.drawEofValue.2.setReg .r3 s.drawEofValue.1) (s'.drawEofValue.2.setReg .r3 s'.drawEofValue.1)) :
    Lockstep R (trapReadChar s) (trapReadChar s') := by
  rw [trapReadChar, trapReadChar, hin, HostInput.takeChar]
  cases hp : s.input.pending with
  | cons b rest => exact .next (hset _ _)
  | nil =>
    cases s.input.ended with
    | false => exact .fault _
    | true => exact .next (hdraw hp)

end sharedInput

/-! ## The fault kind -/

/-- The states are the same but for the recorded fault kind. -/
def SameButKind (s s' : State) : Prop := ∃ k, s' = { s with faultKind := k }

theorem sameButKind_checkTerm {s s' : State} (h : SameButKind s s') : SameButKind s.checkTerm s'.checkTerm := by
  obtain ⟨k, rfl⟩ := h
  rw [State.checkTerm_eq, State.checkTerm_eq]
  split <;> exact ⟨k, rfl⟩

/-- No instruction reads the fault kind (10_state.md R36). -/
theorem kind_unseen (i : Instr) (s : State) (k : Option FaultKind) :
    Unseen SameButKind i s { s with faultKind := k } where
  memSize := rfl
  mem := rfl
  reg _ _ := rfl
  setReg _ _ _ := ⟨k, rfl⟩
  writeMem _ := ⟨k, rfl⟩
  takeFault k' := ⟨some k', rfl⟩
  emit _ := ⟨k, rfl⟩
  raiseTerm := ⟨k, rfl⟩
  readInt _ := trapReadInt_lockstep rfl (fun _ _ => ⟨k, rfl⟩) (fun _ => ⟨k, rfl⟩)
  readChar _ := trapReadChar_lockstep rfl (fun _ _ => ⟨k, rfl⟩) (fun _ => ⟨k, rfl⟩)

theorem kind_unseenByStep (s : State) (k : Option FaultKind) :
    UnseenByStep SameButKind s { s with faultKind := k } where
  fsm := rfl
  pc := rfl
  memSize := rfl
  mem := rfl
  fetchFault := ⟨_, rfl⟩
  decodeFault k' := ⟨some k', rfl⟩
  checkTerm _ _ := sameButKind_checkTerm
  fetched i _ := kind_unseen i s.fetched k

/-- Settles O23: no observation reads the kind, and a step runs in lockstep whichever kind is recorded. -/
theorem faultKindIsNotObservable : Obligations.FaultKindIsNotObservable := by
  intro s k h received
  have hstep := step_lockstep (kind_unseenByStep s k)
  refine ⟨rfl, Iff.rfl, rfl, rfl, fun t ht => ?next, fun f hf => ?stop⟩
  case next =>
    rw [ht] at hstep
    obtain ⟨_, h', k', rfl⟩ := hstep.of_next
    exact ⟨k', h'⟩
  case stop =>
    rw [hf] at hstep
    exact hstep.of_fault

/-! ## A register the instruction does not name -/

theorem register_unseen {i : Instr} {q : RegIdx} (hq : q ∉ namedRegs i) (s : State) (v : Word) :
    Unseen (fun t t' => t' = t.setReg q v) i s (s.setReg q v) where
  memSize := rfl
  mem := rfl
  reg r hr := State.setReg_reg_other s v (ne_of_mem_of_not_mem hr hq)
  setReg r hr w := State.setReg_comm s v w (ne_of_mem_of_not_mem hr hq).symm
  writeMem _ := rfl
  takeFault _ := rfl
  emit _ := rfl
  raiseTerm := rfl
  readInt hi := by
    subst hi
    have h3 : q ≠ .r3 := by simpa [namedRegs] using hq
    exact trapReadInt_lockstep rfl (fun h w => State.setReg_comm (s.setInput h) v w h3) (fun _ => rfl)
  readChar hi := by
    subst hi
    have h3 : q ≠ .r3 := by simpa [namedRegs] using hq
    exact trapReadChar_lockstep rfl (fun h w => State.setReg_comm (s.setInput h) v w h3)
      (fun _ => State.setReg_comm s.drawEofValue.2 v _ h3)

/-- Settles O25: execute runs in lockstep on the states with and without the write. -/
theorem unnamedRegistersHaveNoEffect : Obligations.UnnamedRegistersHaveNoEffect := by
  intro i s q v hq
  have hexec := exec_lockstep (register_unseen hq s v)
  generalize exec i s = o, exec i (s.setReg q v) = o' at hexec
  cases hexec with
  | next h => rw [h]
  | fault f => rfl
  | refused f => rfl

/-! ## The environment -/

/-- The state with its environment changed. -/
def withEnvironment (e : Environment → Environment) (s : State) : State :=
  { s with toEnvironment := e s.toEnvironment }

theorem checkTerm_withEnvironment (e : Environment → Environment) (s : State) :
    (withEnvironment e s).checkTerm = withEnvironment e s.checkTerm := by
  rw [State.checkTerm_eq, State.checkTerm_eq]
  have hfsm : (withEnvironment e s).fsm = s.fsm := rfl
  have hterm : (withEnvironment e s).term = s.term := rfl
  rw [hfsm, hterm]
  split <;> rfl

/-- A change of the environment that keeps MEM_SIZE is seen by no cycle but in what TRP 2 and TRP 4 read. -/
theorem environment_unseenByStep {R : State → State → Prop} {e : Environment → Environment} {s : State}
    (he : ∀ x, (e x).memSize = x.memSize) (hR : ∀ t, R t (withEnvironment e t))
    (hcheck : ∀ t t', R t t' → R t.checkTerm t'.checkTerm)
    (hInt : Fetches s (.trp 2) → Lockstep R (trapReadInt s.fetched) (trapReadInt (withEnvironment e s.fetched)))
    (hChar : Fetches s (.trp 4) → Lockstep R (trapReadChar s.fetched) (trapReadChar (withEnvironment e s.fetched))) :
    UnseenByStep R s (withEnvironment e s) where
  fsm := rfl
  pc := rfl
  memSize := he _
  mem := rfl
  fetchFault := hR _
  decodeFault _ := hR _
  checkTerm := hcheck
  fetched i hi :=
    { memSize := he _
      mem := rfl
      reg := fun _ _ => rfl
      setReg := fun _ _ _ => hR _
      writeMem := fun _ => hR _
      takeFault := fun _ => hR _
      emit := fun _ => hR _
      raiseTerm := hR _
      readInt := by rintro rfl; exact hInt hi
      readChar := by rintro rfl; exact hChar hi }

/-- A step commutes with a change of the environment that it does not see. -/
theorem step_withEnvironment {e : Environment → Environment} {s t : State}
    (h : UnseenByStep (fun t t' => t' = withEnvironment e t) s (withEnvironment e s)) (ht : step s = .next t) :
    step (withEnvironment e s) = .next (withEnvironment e t) := by
  have hstep := step_lockstep h
  rw [ht] at hstep
  obtain ⟨_, h', rfl⟩ := hstep.of_next
  exact h'

/-- A cycle that is no TRP 2 or TRP 4 sees neither the host input nor the count of draws. -/
theorem step_of_no_read {s t : State} (h2 : ¬ Fetches s (.trp 2)) (h4 : ¬ Fetches s (.trp 4)) (ht : step s = .next t)
    (h : HostInput) (d : Nat) : step { s with input := h, draws := d } = .next { t with input := h, draws := d } := by
  refine step_withEnvironment (e := fun x => { x with input := h, draws := d }) ?_ ht
  refine environment_unseenByStep (fun _ => rfl) (fun _ => rfl) ?_ (absurd · h2) (absurd · h4)
  rintro t _ rfl
  exact checkTerm_withEnvironment _ t

/-- A cycle that draws no value does not see the count of draws. -/
theorem step_of_no_draw {s t : State} (h4 : ¬ (Fetches s (.trp 4) ∧ s.input.pending = [])) (ht : step s = .next t)
    (d : Nat) : step { s with draws := d } = .next { t with draws := d } := by
  refine step_withEnvironment (e := fun x => { x with draws := d }) ?_ ht
  refine environment_unseenByStep (fun _ => rfl) (fun _ => rfl) ?_
    (fun _ => trapReadInt_lockstep rfl (fun _ _ => rfl) fun _ => rfl)
    (fun hf => trapReadChar_lockstep rfl (fun _ _ => rfl) fun hp => absurd ⟨hf, hp⟩ h4)
  rintro t _ rfl
  exact checkTerm_withEnvironment _ t

/-! ## The record of the input consumed -/

/-- The states have the same machine state (10_state.md R40), whatever their environments. -/
def SameCore (s s' : State) : Prop := s'.toCoreState = s.toCoreState

theorem sameCore_checkTerm {s s' : State} (h : SameCore s s') : SameCore s.checkTerm s'.checkTerm := by
  have hs' : s' = withEnvironment (fun _ => s'.toEnvironment) s := by
    rw [withEnvironment, ← h]
  rw [hs', checkTerm_withEnvironment]
  rfl

/-- The environment with another record of the input consumed. -/
def withConsumed (c : List Byte) (e : Environment) : Environment :=
  { e with input := { e.input with consumed := c } }

theorem trapReadInt_withConsumed (c : List Byte) (s : State) :
    Lockstep SameCore (trapReadInt s) (trapReadInt (withEnvironment (withConsumed c) s)) := by
  have hpending : (withEnvironment (withConsumed c) s).input.pending = s.input.pending := rfl
  have hended : (withEnvironment (withConsumed c) s).input.ended = s.input.ended := rfl
  rw [trapReadInt, trapReadInt, HostInput.takeLine, HostInput.takeLine, hpending, hended]
  cases splitLine s.input.pending with
  | some p =>
    dsimp only
    cases parseInt p.1 <;> exact .next rfl
  | none =>
    cases s.input.ended with
    | false => exact .fault _
    | true =>
      simp only [if_true]
      cases parseInt s.input.pending <;> exact .next rfl

theorem trapReadChar_withConsumed (c : List Byte) (s : State) :
    Lockstep SameCore (trapReadChar s) (trapReadChar (withEnvironment (withConsumed c) s)) := by
  have hpending : (withEnvironment (withConsumed c) s).input.pending = s.input.pending := rfl
  have hended : (withEnvironment (withConsumed c) s).input.ended = s.input.ended := rfl
  rw [trapReadChar, trapReadChar, HostInput.takeChar, HostInput.takeChar, hpending, hended]
  cases s.input.pending with
  | cons b rest => exact .next rfl
  | nil => cases s.input.ended with
    | false => exact .fault _
    | true => exact .next rfl

/-- The input consumed before is seen by nothing but its own record. -/
theorem step_withConsumed {s t : State} (ht : step s = .next t) (c : List Byte) :
    ∃ t', step (withEnvironment (withConsumed c) s) = .next t' ∧ t'.toCoreState = t.toCoreState := by
  have hstep : Lockstep SameCore (step s) (step (withEnvironment (withConsumed c) s)) :=
    step_lockstep (environment_unseenByStep (fun _ => rfl) (fun _ => rfl) (fun _ _ => sameCore_checkTerm)
      (fun _ => trapReadInt_withConsumed c s.fetched) (fun _ => trapReadChar_withConsumed c s.fetched))
  rw [ht] at hstep
  exact hstep.of_next

/-- Settles O53: the step commutes with the changes of the environment that the cycle does not see, and putting back the
old environment shows that it is unchanged. -/
theorem environmentActsOnlyThroughReads : Obligations.EnvironmentActsOnlyThroughReads := by
  intro s t ht
  obtain ⟨-, -, -, -, hmemSize⟩ := stepKeepsHistory s t ht
  refine ⟨hmemSize, fun h2 h4 => ⟨?noRead, step_of_no_read h2 h4 ht⟩, step_withConsumed ht,
    fun h4 => ⟨?draws, step_of_no_draw h4 ht⟩⟩
  case noRead =>
    have hsame := (step_of_no_read h2 h4 ht s.input s.draws).symm.trans ht
    rw [← Host.Outcome.next.inj hsame, hmemSize]
  case draws =>
    have hsame := (step_of_no_draw h4 ht s.draws).symm.trans ht
    rw [← Host.Outcome.next.inj hsame]

end Sys2Proof.Proofs
end

section
/-! SUPPORT. 41_jump.md, 42_move.md and 43_load_store.md: the one register or the bytes that each of these instructions writes, and what a load reads after a store. -/

namespace Sys2Proof.Proofs

open Sys2Proof.Machine Sys2Proof.Claims

/-! ## One register written -/

theorem writesReg_setReg (s : State) (rd : RegIdx) (v : Word) : WritesReg s (s.setReg rd v) rd v :=
  ⟨State.setReg_reg_same s rd v, fun _ hr => State.setReg_reg_other s v hr, rfl⟩

theorem answers_of_exec {i : Instr} {s : State} {rd : RegIdx} {v : Word} (h : exec i s = .next (s.setReg rd v)) :
    Answers i s rd v :=
  ⟨_, h, writesReg_setReg s rd v⟩

/-- Settles O26, by the two cases of the bound on the target. -/
theorem jmpChecksItsTarget : Obligations.JmpChecksItsTarget := by
  intro target s
  exact ⟨fun h => answers_of_exec (execJmp_fits h), fun h => execJmp_exceeds (Nat.not_le.mpr h)⟩

/-- Settles O27: each is one register write. -/
theorem movAndMoviWriteOneRegister : Obligations.MovAndMoviWriteOneRegister :=
  ⟨fun rd rs s => answers_of_exec (exec_mov rd rs s), fun rd v s => answers_of_exec (exec_movi rd v s)⟩

/-! ## Loads -/

/-- The word a load of four bytes reads is the little-endian one (20_memory.md R54). -/
theorem load_word_of_fits (rd : RegIdx) {a : Word} {s : State} (h : a.toNat + 4 ≤ s.memSize.toNat) :
    load 4 rd a s = .next (s.setReg rd (wordAt s a.toNat)) := by
  rw [load_fits rd h]
  simp only [Memory.readBytes, ofNat_leNat_four]
  rfl

/-- A load of one byte zero-extends it (43_load_store.md R166). -/
theorem load_byte_of_fits (rd : RegIdx) {a : Word} {s : State} (h : a.toNat + 1 ≤ s.memSize.toNat) :
    load 1 rd a s = .next (s.setReg rd ((byteAt s a.toNat).setWidth 32)) := by
  rw [load_fits rd h]
  simp [Memory.readBytes, leNat, byteAt]

/-- Settles O30, by the two cases of the bound. -/
theorem ldaAndLdrLoadWord : Obligations.LdaAndLdrLoadWord := by
  intro rd a s
  refine ⟨fun h => ?fits, fun h => ?exceeds⟩
  case fits => exact ⟨answers_of_exec (load_word_of_fits rd h), answers_of_exec (load_word_of_fits rd h)⟩
  case exceeds => exact ⟨load_exceeds rd (Nat.not_le.mpr h), load_exceeds rd (Nat.not_le.mpr h)⟩

/-- Settles O31, by the two cases of the bound. -/
theorem ldbLoadsByte : Obligations.LdbLoadsByte := by
  intro rd a s
  exact ⟨fun h => answers_of_exec (load_byte_of_fits rd h), fun h => load_exceeds rd (Nat.not_le.mpr h)⟩

/-! ## Stores -/

/-- The state after the low `n` bytes of a word are stored from `a` up. -/
def stored (s : State) (a n : Nat) (v : Word) : State := { s with mem := s.mem.writeBytes a (leBytes n v.toNat) }

theorem store_of_fits {n : Nat} (rs : RegIdx) {a : Word} {s : State} (h : a.toNat + n ≤ s.memSize.toNat) :
    store n rs a s = .next (stored s a.toNat n (s.reg rs)) := store_fits rs h

/-- Byte `k` of a word is its bits 8k+7 down to 8k. -/
theorem ofNat_div_pow (v : Word) (k : Nat) : BitVec.ofNat 8 (v.toNat / 256 ^ k) = (v >>> (8 * k)).setWidth 8 := by
  apply BitVec.eq_of_toNat_eq
  have h256 : (256 : Nat) ^ k = 2 ^ (8 * k) := by rw [Nat.pow_mul]
  rw [BitVec.toNat_ofNat, BitVec.toNat_setWidth, BitVec.toNat_ushiftRight, Nat.shiftRight_eq_div_pow, h256]

/-- Every byte of memory after a store. -/
theorem byteAt_stored {s : State} (hwf : s.mem.wf) (a n : Nat) (v : Word) (b : Nat) :
    byteAt (stored s a n v) b = byteAfterStore s a n v b := by
  rw [byteAfterStore]
  split
  case isTrue hin =>
    have hk : b - a < (leBytes n v.toNat).length := by
      rw [leBytes_length]
      omega
    have hread := Memory.read_writeBytes_inside s.mem a (b - a) _ hwf hk
    rw [leBytes_getElem, ofNat_div_pow, Nat.add_sub_cancel' hin.1] at hread
    exact hread
  case isFalse hout =>
    refine Memory.read_writeBytes_outside s.mem a b _ hwf ?_
    rw [leBytes_length]
    omega

theorem writesMem_stored {s : State} (hwf : s.mem.wf) (a n : Nat) (v : Word) : WritesMem s (stored s a n v) a n v := by
  refine ⟨fun k hk => ?inside, fun b hb => ?outside, rfl⟩
  case inside => rw [byteAt_stored hwf, byteAfterStore, if_pos (by omega), Nat.add_sub_cancel_left]
  case outside => rw [byteAt_stored hwf, byteAfterStore, if_neg (by omega)]

theorem stored_wf {s : State} (hwf : s.mem.wf) (a n : Nat) (v : Word) : (stored s a n v).mem.wf :=
  Memory.writeBytes_wf _ _ _ hwf

/-- Settles O32, by the two cases of each bound. -/
theorem strAndStbStore : Obligations.StrAndStbStore := by
  intro rs a s hwf
  exact ⟨fun h => ⟨_, store_of_fits rs h, writesMem_stored hwf _ _ _, stored_wf hwf _ _ _⟩,
    fun h => store_exceeds rs (Nat.not_le.mpr h),
    fun h => ⟨_, store_of_fits rs h, writesMem_stored hwf _ _ _, stored_wf hwf _ _ _⟩,
    fun h => store_exceeds rs (Nat.not_le.mpr h)⟩

/-! ## A load after a store -/

/-- A stored word is read back whole. -/
theorem wordAt_stored {s : State} (hwf : s.mem.wf) (a : Nat) (v : Word) : wordAt (stored s a 4 v) a = v := by
  have hread : (stored s a 4 v).mem.readBytes a 4 = leBytes 4 v.toNat := by
    have := Memory.readBytes_writeBytes s.mem a (leBytes 4 v.toNat) hwf
    rwa [leBytes_length] at this
  have hword : wordAt (stored s a 4 v) a = BitVec.ofNat 32 (leNat ((stored s a 4 v).mem.readBytes a 4)) := by
    simp only [Memory.readBytes, ofNat_leNat_four]
    rfl
  rw [hword, hread, leNat_leBytes]
  apply BitVec.eq_of_toNat_eq
  have := v.isLt
  rw [BitVec.toNat_ofNat]
  omega

/-- LDR and LDA at a stored word give that word. -/
theorem load_word_stored {s : State} (hwf : s.mem.wf) (rd : RegIdx) {a : Word} (v : Word)
    (h : a.toNat + 4 ≤ s.memSize.toNat) :
    load 4 rd a (stored s a.toNat 4 v) = .next ((stored s a.toNat 4 v).setReg rd v) := by
  have hload := load_word_of_fits rd (s := stored s a.toNat 4 v) h
  rwa [wordAt_stored hwf] at hload

/-- A byte of an access in bounds has the address the access begins at plus its place: addresses do not wrap. -/
theorem toNat_add_of_fits {a n : Word} {k : Nat} (h : a.toNat + 4 ≤ n.toNat) (hk : k < 4) :
    (a + BitVec.ofNat 32 k).toNat = a.toNat + k := by
  have := n.isLt
  rw [BitVec.toNat_add, BitVec.toNat_ofNat]
  omega

theorem setWidth_setWidth_low_byte (v : Word) : (v.setWidth 8).setWidth 32 = v &&& 0xFF#32 := by
  apply BitVec.eq_of_toNat_eq
  have := v.isLt
  have hmask : (0xFF#32).toNat = 2 ^ 8 - 1 := rfl
  rw [BitVec.toNat_and, hmask, Nat.and_two_pow_sub_one_eq_mod, BitVec.toNat_setWidth, BitVec.toNat_setWidth]
  omega

/-- LDB at a stored byte gives that byte of the stored word. -/
theorem ldb_answers_stored {s : State} (hwf : s.mem.wf) (rd : RegIdx) {a b : Word} {n k : Nat} (v : Word)
    (hb : b.toNat = a.toNat + k) (hk : k < n) (hfits : a.toNat + n ≤ s.memSize.toNat) :
    Answers (.ldb rd b) (stored s a.toNat n v) rd ((v >>> (8 * k)) &&& 0xFF#32) := by
  have hread : byteAt (stored s a.toNat n v) b.toNat = (v >>> (8 * k)).setWidth 8 := by
    rw [hb]
    exact (writesMem_stored hwf _ _ _).1 k hk
  rw [← setWidth_setWidth_low_byte, ← hread]
  exact answers_of_exec (load_byte_of_fits rd (by show b.toNat + 1 ≤ s.memSize.toNat; omega))

/-- Settles O33: the loads read the stored state, word and bytes. -/
theorem storedValueReadsBack : Obligations.StoredValueReadsBack := by
  intro rs rd a s hwf hfits
  refine ⟨⟨_, store_of_fits rs hfits, ?ldr, ?lda, fun k hk => ?ldb⟩, fun k hk => ?stb⟩
  case ldr => exact answers_of_exec (load_word_stored hwf rd _ hfits)
  case lda => exact answers_of_exec (load_word_stored hwf rd _ hfits)
  case ldb => exact ldb_answers_stored hwf rd _ (toNat_add_of_fits hfits hk) hk hfits
  case stb =>
    have haddr := toNat_add_of_fits hfits hk
    have hfits1 : (a + BitVec.ofNat 32 k).toNat + 1 ≤ s.memSize.toNat := by omega
    refine ⟨_, store_of_fits rs hfits1, ?_, fun j hj => ?_⟩
    · exact ldb_answers_stored hwf rd (k := 0) _ rfl (by omega) hfits1
    · rw [byteAt_stored hwf, byteAfterStore, haddr]
      by_cases hjk : j = k
      · rw [if_pos hjk, if_pos (by omega), hjk, Nat.sub_self, Nat.mul_zero, BitVec.ushiftRight_zero]
      · rw [if_neg hjk, if_neg (by omega)]

end Sys2Proof.Proofs
end

section
/-! SUPPORT. 44_arithmetic.md R180 to R190: the results of the arithmetic instructions, as exact integers. -/

namespace Sys2Proof.Proofs

open Sys2Proof.Machine Sys2Proof.Claims

/-! ## Sums, differences and products -/

/-- Settles O35: word addition is addition modulo 2^32. -/
theorem addAndAddiWrap : Obligations.AddAndAddiWrap :=
  ⟨fun rd rs1 rs2 s => ⟨_, answers_of_exec (exec_add rd rs1 rs2 s), BitVec.toNat_add _ _⟩,
    fun rd rs v s => ⟨_, answers_of_exec (exec_addi rd rs v s), BitVec.toNat_add _ _⟩⟩

/-- The difference of words is the integer difference modulo 2^32. -/
theorem sub_toNat (a b : Word) : ((a - b).toNat : Int) = ((a.toNat : Int) - b.toNat) % 2 ^ 32 := by
  have ha := a.isLt
  have hb := b.isLt
  rw [BitVec.toNat_sub]
  omega

/-- Settles O36: word subtraction is subtraction modulo 2^32. -/
theorem subAndSubiWrap : Obligations.SubAndSubiWrap :=
  ⟨fun rd rs1 rs2 s => ⟨_, answers_of_exec (exec_sub rd rs1 rs2 s), sub_toNat _ _⟩,
    fun rd rs v s => ⟨_, answers_of_exec (exec_subi rd rs v s), sub_toNat _ _⟩⟩

/-- Settles O37: word multiplication is multiplication modulo 2^32. -/
theorem mulAndMuliWrap : Obligations.MulAndMuliWrap :=
  ⟨fun rd rs1 rs2 s => ⟨_, answers_of_exec (exec_mul rd rs1 rs2 s), BitVec.toNat_mul _ _⟩,
    fun rd rs v s => ⟨_, answers_of_exec (exec_muli rd rs v s), BitVec.toNat_mul _ _⟩⟩

/-! ## Quotients -/

theorem arith_divu_of_ne {rs : RegIdx} {src : Source} {s : State} (rd : RegIdx) (h : src.value s ≠ 0) :
    arith .divu rd rs src s = .next (s.setReg rd (s.reg rs / src.value s)) := arith_of_some rd (alu_divu _ _ h)

theorem arith_divs_of_ne {rs : RegIdx} {src : Source} {s : State} (rd : RegIdx) (h : src.value s ≠ 0) :
    arith .divs rd rs src s = .next (s.setReg rd ((s.reg rs).sdiv (src.value s))) := arith_of_some rd (alu_divs _ _ h)

theorem arith_divu_of_zero {rs : RegIdx} {src : Source} {s : State} (rd : RegIdx) (h : src.value s = 0) :
    arith .divu rd rs src s = .next (faulted s .divideByZero) :=
  arith_of_none rd (by rw [h, alu_divu_zero])

theorem arith_divs_of_zero {rs : RegIdx} {src : Source} {s : State} (rd : RegIdx) (h : src.value s = 0) :
    arith .divs rd rs src s = .next (faulted s .divideByZero) :=
  arith_of_none rd (by rw [h, alu_divs_zero])

/-- The quotient of words is the one that leaves a remainder below the divisor. -/
theorem udiv_remainder (a : Word) {b : Word} (h : b ≠ 0) :
    ∃ rem, a.toNat = b.toNat * (a / b).toNat + rem ∧ rem < b.toNat := by
  have hb : b.toNat ≠ 0 := fun h0 => h (BitVec.eq_of_toNat_eq h0)
  refine ⟨a.toNat % b.toNat, ?_, Nat.mod_lt _ (Nat.pos_of_ne_zero hb)⟩
  rw [BitVec.toNat_udiv, Nat.div_add_mod]

/-- Settles O38, by the two cases of the divisor. -/
theorem divAndDiviUnsigned : Obligations.DivAndDiviUnsigned :=
  ⟨fun rd _ rs2 _ => ⟨fun h => ⟨_, answers_of_exec (arith_divu_of_ne (src := .reg rs2) rd h), udiv_remainder _ h⟩,
      fun h => arith_divu_of_zero (src := .reg rs2) rd h⟩,
    fun rd _ v _ => ⟨fun h => ⟨_, answers_of_exec (arith_divu_of_ne (src := .imm v) rd h), udiv_remainder _ h⟩,
      fun h => arith_divu_of_zero (src := .imm v) rd h⟩⟩

/-- The quotient rounded toward zero leaves a remainder smaller than the divisor, on the dividend's side of zero. -/
theorem tdiv_remainder (a : Int) {b : Int} (h : b ≠ 0) :
    a = b * a.tdiv b + a.tmod b ∧ |a.tmod b| < |b| ∧ (0 ≤ a → 0 ≤ a.tmod b) ∧ (a ≤ 0 → a.tmod b ≤ 0) := by
  refine ⟨(Int.mul_tdiv_add_tmod a b).symm, ?size, fun ha => Int.tmod_nonneg b ha, ?sign⟩
  case size =>
    rw [Int.abs_eq_natAbs, Int.abs_eq_natAbs, Int.natAbs_tmod]
    exact_mod_cast Nat.mod_lt _ (Int.natAbs_pos.mpr h)
  case sign =>
    intro ha
    have hneg := Int.tmod_nonneg b (Int.neg_nonneg.mpr ha)
    rw [Int.neg_tmod] at hneg
    exact Int.neg_nonneg.mp hneg

/-- Settles O39: the quotient rounded toward zero, the one that wraps by evaluation, and the zero divisor. -/
theorem sdivTruncatesTowardZero : Obligations.SdivTruncatesTowardZero := by
  intro rd rs1 rs2 s
  refine ⟨fun h => ?quotient, fun h ha hb => ?wraps, fun h => arith_divs_of_zero (src := .reg rs2) rd h⟩
  case quotient =>
    have hb : (s.reg rs2).toInt ≠ 0 := fun h0 => h (BitVec.eq_of_toInt_eq h0)
    exact ⟨_, _, answers_of_exec (arith_of_some (src := .reg rs2) rd (alu_divs_of_ne h)), tdiv_remainder _ hb⟩
  case wraps =>
    have hquot : (s.reg rs1).sdiv (s.reg rs2) = 0x80000000 := by rw [ha, hb]; rfl
    rw [← hquot]
    exact answers_of_exec (arith_divs_of_ne (src := .reg rs2) rd h)

end Sys2Proof.Proofs
end

section
/-! SUPPORT. 45_trap.md R213 to R222: the texts the traps emit and parse, and what each trap does. -/

namespace Sys2Proof.Proofs

open Sys2Proof.Machine Sys2Proof.Claims

/-! ## Numerals -/

theorem decimalDigits_length_of_lt_ten (fuel : Nat) {n : Nat} (h : n < 10) : (decimalDigits fuel n).length = 1 := by
  cases fuel with
  | zero => rfl
  | succ fuel => rw [decimalDigits, if_pos h, List.length_singleton]

/-- The digits of a number below 10^10 are its numeral (45_trap.md R219). -/
theorem udecimal_isNumeral {n : Nat} (h : n < 10 ^ 10) : IsNumeral (udecimal n) n := by
  refine ⟨decimalDigits_ne_nil 9 n, decimalDigits_all 9 n, fun hlen => ?_, decimalDigits_value 9 n h⟩
  by_cases hzero : n = 0
  · rw [udecimal, decimalDigits_length_of_lt_ten 9 (by omega)] at hlen
    omega
  · exact decimalDigits_head 9 n h (Nat.pos_of_ne_zero hzero)

theorem toNat_lt_pow_ten (v : Word) : v.toNat < 10 ^ 10 := Nat.lt_trans v.isLt (by decide)

/-- A signed word lies in the range of 32 bits. -/
theorem toInt_range (v : Word) : -2 ^ 31 ≤ v.toInt ∧ v.toInt < 2 ^ 31 := by
  have hle := BitVec.le_toInt v
  have hlt := BitVec.toInt_lt (x := v)
  omega

/-- The numeral of a number whose size is below 10^10 (45_trap.md R214). -/
theorem sdecimal_isSignedNumeral {v : Int} (h : v.natAbs < 10 ^ 10) : IsSignedNumeral (sdecimal v) v := by
  rw [sdecimal]
  split
  case isTrue hneg => exact ⟨fun _ => ⟨_, rfl, udecimal_isNumeral h⟩, fun hpos => absurd hneg (by omega)⟩
  case isFalse hpos => exact ⟨fun hneg => absurd hneg hpos, fun _ => udecimal_isNumeral h⟩

theorem toInt_natAbs_lt (v : Word) : v.toInt.natAbs < 10 ^ 10 := by
  have := toInt_range v
  omega

/-! ## PARSE_INT -/

theorem parseInt_digits {ds : List Byte} (hne : ds ≠ []) (hd : ∀ b ∈ ds, 0x30 ≤ b.toNat ∧ b.toNat ≤ 0x39) :
    parseInt ds = if digitsValue ds < 2 ^ 31 then some (digitsValue ds : Int) else none := by
  rw [parseInt, signedNumeral_digits hne hd]
  exact if_congr (by omega) rfl rfl

theorem parseInt_minus {ds : List Byte} (hne : ds ≠ []) (hd : ∀ b ∈ ds, 0x30 ≤ b.toNat ∧ b.toNat ≤ 0x39) :
    parseInt (0x2D :: ds) = if digitsValue ds ≤ 2 ^ 31 then some (-(digitsValue ds : Int)) else none := by
  rw [parseInt, signedNumeral_minus hne hd]
  exact if_congr (by omega) rfl rfl

/-- Settles O43: a string of digits, with or without the sign, has its value, which the range admits or not. -/
theorem parseIntOnNumerals : Obligations.ParseIntOnNumerals := by
  refine ⟨fun ds hne hd n hn => ?_, rfl⟩
  subst hn
  exact ⟨parseInt_digits hne hd, parseInt_minus hne hd⟩

/-- A written number in the range of 32 bits is read back. -/
theorem parseInt_sdecimal {v : Int} (h : -2 ^ 31 ≤ v ∧ v < 2 ^ 31) : parseInt (sdecimal v) = some v := by
  have hvalue : digitsValue (udecimal v.natAbs) = v.natAbs := decimalDigits_value 9 _ (by omega)
  have hne : udecimal v.natAbs ≠ [] := decimalDigits_ne_nil 9 _
  have hd := decimalDigits_all 9 v.natAbs
  rw [sdecimal]
  split
  case isTrue hneg =>
    rw [parseInt_minus hne hd, hvalue, if_pos (by omega)]
    exact congrArg some (by omega)
  case isFalse hpos =>
    rw [parseInt_digits hne hd, hvalue, if_pos (by omega)]
    exact congrArg some (by omega)

theorem newline_not_mem_sdecimal (v : Int) : 0x0A#8 ∉ sdecimal v := by
  have hdigits : 0x0A#8 ∉ udecimal v.natAbs := fun hmem => absurd (decimalDigits_all 9 _ _ hmem).1 (by decide)
  rw [sdecimal]
  split
  · exact List.not_mem_cons_of_ne_of_not_mem (by decide) hdigits
  · exact hdigits

/-! ## The traps that write -/

/-- Settles O41: what TRP 1 emits is the signed numeral of R3. -/
theorem trapOneWritesSignedDecimal : Obligations.TrapOneWritesSignedDecimal :=
  fun s => ⟨_, exec_trp_one s, sdecimal_isSignedNumeral (toInt_natAbs_lt _)⟩

/-- Settles O44: the numeral TRP 1 emits lies in the range of PARSE_INT. -/
theorem writtenIntegerReadsBack : Obligations.WrittenIntegerReadsBack :=
  fun s => ⟨_, exec_trp_one s, parseInt_sdecimal (toInt_range _), newline_not_mem_sdecimal _⟩

theorem regName_eq_dumpNames : ∀ r : RegIdx, regName r = dumpNames[r.val]! := by decide

/-- The dump's text, with the names and numerals the statements speak of. -/
theorem dumpText_eq (s : State) : dumpText s = (List.finRange 22).flatMap fun r =>
    dumpNames[r.val]! ++ [0x09#8] ++ udecimal (s.reg r).toNat ++ [0x0A#8] := by
  have hline : dumpLine s = fun r => dumpNames[r.val]! ++ [0x09#8] ++ udecimal (s.reg r).toNat ++ [0x0A#8] :=
    funext fun r => by rw [dumpLine, regName_eq_dumpNames]
  rw [dumpText, hline]

/-- Settles O47: the dump, line for line, with the unsigned numeral of each register. -/
theorem trapNinetyEightDumpsRegisters : Obligations.TrapNinetyEightDumpsRegisters := by
  intro s
  refine ⟨fun r => udecimal (s.reg r).toNat, fun r => udecimal_isNumeral (toNat_lt_pow_ten _), ?_⟩
  rw [exec_trp_ninetyEight, dumpText_eq]
  rfl

/-! ## TRP 0 -/

/-- Settles O40: execute, the decoder and the cycle of a TRP 0. -/
theorem trapZeroRaisesTermination : Obligations.TrapZeroRaisesTermination :=
  ⟨exec_trp_zero, fun _ _ _ => rfl, fun s hf => ⟨_, step_of_fetches_trp_zero hf, rfl, afterFetch_pc s⟩⟩

/-! ## The traps that read -/

theorem takeLine_of_newline {h : HostInput} {line rest : List Byte} (hline : 0x0A#8 ∉ line)
    (hp : h.pending = line ++ 0x0A#8 :: rest) :
    h.takeLine = some (line, ⟨rest, h.ended, h.consumed ++ line ++ [0x0A#8]⟩) := by
  rw [HostInput.takeLine, hp, splitLine_append line rest hline]

theorem takeLine_of_ended {h : HostInput} {line : List Byte} (hline : 0x0A#8 ∉ line) (hp : h.pending = line)
    (hend : h.ended = true) : h.takeLine = some (line, ⟨[], h.ended, h.consumed ++ line⟩) := by
  rw [HostInput.takeLine, hp, (splitLine_eq_none line).mpr hline, if_pos hend]

/-- Settles O42: both kinds of line are what TRP 2 takes from the input, and PARSE_INT decides between the register
write and the abort. -/
theorem trapTwoReadsLine : Obligations.TrapTwoReadsLine := by
  intro s
  refine ⟨fun hp hend => trapReadInt_fault.mpr ⟨rfl, hend, hp⟩,
    fun line rest hline left consumed hcase => ?read⟩
  case read =>
    have htake : s.input.takeLine = some (line, ⟨left, s.input.ended, consumed⟩) := by
      obtain ⟨hp, rfl, rfl⟩ | ⟨hp, hend, rfl, rfl⟩ := hcase
      · exact takeLine_of_newline hline hp
      · exact takeLine_of_ended hline hp hend
    have hstatus (h : Config.HostReport) (hl : h.Lawful) :
        some (h.exitStatus .unparsableInteger) = some (h.exitStatus .unparsableInteger) ∧
          h.exitStatus .unparsableInteger ≠ h.exitStatus .fault ∧ h.exitStatus .unparsableInteger ≠ h.successValue :=
      ⟨rfl, hl.1.ne (by decide), lawful_ne_success hl (by decide)⟩
    exact ⟨fun v hv => ⟨_, trapReadInt_of_value htake hv, writesReg_setReg _ _ _⟩,
      fun hv => ⟨_, trapReadInt_of_no_value htake hv, rfl, rfl, fun _ => Iff.rfl, hstatus⟩⟩

/-- Settles O46, by the three cases of the input. -/
theorem trapFourReadsCharacter : Obligations.TrapFourReadsCharacter := by
  intro s
  exact ⟨fun hp hend => trapReadChar_fault.mpr ⟨rfl, hend, hp⟩,
    fun b rest hp => ⟨_, trapReadChar_of_byte hp, writesReg_setReg _ _ _⟩,
    fun hp hend => ⟨_, trapReadChar_of_ended hp hend, writesReg_setReg _ _ _⟩⟩

end Sys2Proof.Proofs
end

section
/-! SUPPORT. 10_state.md section 2, 20_memory.md section 4 and 70_reset_and_hazards.md R276, R277: the cycle of an instruction that writes a register or stores, with PC as operand or destination. -/

namespace Sys2Proof.Proofs

open Sys2Proof.Machine Sys2Proof.Claims

/-! ## The cycle with the signal down -/

/-- What an instruction reads from a register is what the register holds after fetch. -/
theorem afterFetch_reg (s : State) (r : RegIdx) : (afterFetch s).reg r = cycleReg s r := by
  rw [cycleReg]
  split
  case isTrue h => exact h ▸ afterFetch_pc s
  case isFalse h => exact afterFetch_reg_other s h

theorem cycleReg_pc (s : State) : cycleReg s .pc = s.pc + 8 := if_pos rfl

/-- A cycle that leaves the signal down ends where execute does. -/
theorem step_of_exec_term_false {s t : State} {i : Instr} (hf : Fetches s i) (he : exec i (afterFetch s) = .next t)
    (ht : t.term = false) : step s = .next t := by
  rw [step_of_exec_next hf he, checkTerm_of_term_false ht]

/-! ## Instructions that write one register -/

/-- The register and the value of `registerResult` are what execute writes. -/
theorem exec_of_registerResult {s : State} {i : Instr} {rd : RegIdx} {v : Word}
    (h : registerResult s i = some (rd, v)) : exec i (afterFetch s) = .next ((afterFetch s).setReg rd v) := by
  cases i with
  | jmp | str | stb | trp => cases h
  | mov rd rs =>
    cases h
    rw [exec_mov, afterFetch_reg]
  | movi => cases h; rfl
  | lda _ a | ldr _ a =>
    obtain ⟨hfits, hv⟩ := Option.ite_none_right_eq_some.mp h
    cases hv
    exact load_word_of_fits rd hfits
  | ldb _ a =>
    obtain ⟨hfits, hv⟩ := Option.ite_none_right_eq_some.mp h
    cases hv
    exact load_byte_of_fits rd hfits
  | add => cases h; rw [exec_add, afterFetch_reg, afterFetch_reg]
  | addi => cases h; rw [exec_addi, afterFetch_reg]
  | sub => cases h; rw [exec_sub, afterFetch_reg, afterFetch_reg]
  | subi => cases h; rw [exec_subi, afterFetch_reg]
  | mul => cases h; rw [exec_mul, afterFetch_reg, afterFetch_reg]
  | muli => cases h; rw [exec_muli, afterFetch_reg]
  | div _ rs1 rs2 =>
    obtain ⟨hne, hv⟩ := Option.ite_none_left_eq_some.mp h
    cases hv
    rw [← afterFetch_reg] at hne
    rw [← afterFetch_reg, ← afterFetch_reg]
    exact arith_divu_of_ne (src := .reg rs2) rd hne
  | sdiv _ rs1 rs2 =>
    obtain ⟨hne, hv⟩ := Option.ite_none_left_eq_some.mp h
    cases hv
    rw [← afterFetch_reg] at hne
    rw [← afterFetch_reg, ← afterFetch_reg]
    exact arith_divs_of_ne (src := .reg rs2) rd hne
  | divi _ rs v' =>
    obtain ⟨hne, hv⟩ := Option.ite_none_left_eq_some.mp h
    cases hv
    rw [← afterFetch_reg]
    exact arith_divu_of_ne (src := .imm v') rd hne

/-- The cycle of an instruction that writes one register. -/
theorem step_of_registerResult {s : State} {i : Instr} {rd : RegIdx} {v : Word} (hf : Fetches s i)
    (hterm : s.term = false) (h : registerResult s i = some (rd, v)) : step s = .next ((afterFetch s).setReg rd v) :=
  step_of_exec_term_false hf (exec_of_registerResult h) hterm

/-- Settles O28: the cycle ends with the value in PC, and the next fetch looks at that PC. -/
theorem uncheckedJumpFaultsAtNextFetch : Obligations.UncheckedJumpFaultsAtNextFetch := by
  intro s i v hf hterm h
  have hpc : ((afterFetch s).setReg .pc v).pc = v := State.setPc_pc _ v
  have hrun : ((afterFetch s).setReg .pc v).fsm = .running := hf.1.1
  refine ⟨_, step_of_registerResult hf hterm h, hrun, hpc, fun r hr => ?frame, rfl, fun hfits => ?fits,
    fun hover => ?overruns⟩
  case frame => rw [State.setReg_reg_other _ _ hr, afterFetch_reg_other s hr]
  case fits => exact ⟨_, fetch_of_fits (by rw [hpc]; exact hfits), rfl⟩
  case overruns =>
    exact ⟨_, step_of_not_fits hrun (by rw [hpc]; exact hover), rfl, hpc, rfl, hpc⟩

/-! ## Stores -/

/-- The cycle of a store in bounds. -/
theorem step_of_store {s : State} {i : Instr} {rs : RegIdx} {a : Word} {n : Nat}
    (hi : i = .str rs a ∧ n = 4 ∨ i = .stb rs a ∧ n = 1) (hf : Fetches s i) (hterm : s.term = false)
    (hfits : a.toNat + n ≤ s.memSize.toNat) : step s = .next (stored (afterFetch s) a.toNat n (cycleReg s rs)) := by
  refine step_of_exec_term_false hf ?_ hterm
  rw [← afterFetch_reg]
  obtain ⟨rfl, rfl⟩ | ⟨rfl, rfl⟩ := hi <;> exact store_of_fits rs hfits

/-- Settles O29: execute reads the registers as fetch left them, whichever instruction it runs. -/
theorem pcReadsAsNextAddress : Obligations.PcReadsAsNextAddress := by
  intro s hterm
  refine ⟨cycleReg_pc s, fun i rd v hf h => ?register,
    fun rs a hwf => ⟨fun hf hfits => ?word, fun hf hfits => ?byte⟩, fun hf => ?dump⟩
  case register =>
    refine ⟨_, step_of_registerResult hf hterm h, State.setReg_reg_same _ _ _, fun r hr => ?_⟩
    rw [State.setReg_reg_other _ _ hr, afterFetch_reg]
  case word => exact ⟨_, step_of_store (.inl ⟨rfl, rfl⟩) hf hterm hfits, wordAt_stored (s := afterFetch s) hwf _ _⟩
  case byte =>
    refine ⟨_, step_of_store (.inr ⟨rfl, rfl⟩) hf hterm hfits, ?_⟩
    exact (writesMem_stored (s := afterFetch s) hwf _ 1 _).1 0 Nat.one_pos
  case dump =>
    refine ⟨_, fun r => udecimal (cycleReg s r).toNat, step_of_exec_term_false hf (exec_trp_ninetyEight _) hterm,
      fun r => udecimal_isNumeral (toNat_lt_pow_ten _), ?_⟩
    simp only [State.emit_out, dumpText_eq, afterFetch_reg]
    rfl

/-- Settles O34: the next fetch reads its record, eight bytes past this one, from the memory the store left. -/
theorem storeIsSeenByNextFetch : Obligations.StoreIsSeenByNextFetch := by
  intro s i rs a n hi hf hwf hterm hfits hnext
  have hbyte : ∀ b, byteAt (stored (afterFetch s) a.toNat n (cycleReg s rs)) b =
      byteAfterStore s a.toNat n (cycleReg s rs) b := byteAt_stored (s := afterFetch s) hwf _ _ _
  have hpc : (stored (afterFetch s) a.toNat n (cycleReg s rs)).pc = s.pc + 8 := afterFetch_pc s
  have hpcNat : (s.pc + 8).toNat = s.pc.toNat + 8 := State.pc_add_eight s hf.1.2
  generalize ht : stored (afterFetch s) a.toNat n (cycleReg s rs) = t at hbyte hpc
  have hfetch : t.fetch = some ((t.setIr (recordAt t)).setPc (t.pc + 8)) := by
    refine fetch_of_fits ?_
    rw [hpc, hpcNat, ← ht]
    exact hnext
  refine ⟨t, _, ht ▸ step_of_store hi hf hterm hfits, ht ▸ rfl, hbyte, hfetch, ?pc, ?ir⟩
  case pc =>
    rw [State.setPc_pc, hpc, BitVec.add_assoc]
    rfl
  case ir =>
    simp only [State.setPc_ir, State.setIr_ir, recordAt, wordAt, hpc, hpcNat, hbyte]

end Sys2Proof.Proofs
end

section
/-! SUPPORT. 70_reset_and_hazards.md R271 to R273 and 10_state.md R39: the state after reset, what a launch sets, and the launches that do not start the CORE. -/

namespace Sys2Proof.Proofs

open Sys2Proof.Machine Sys2Proof.Claims

/-! ## Reset -/

theorem reset_reg (r : RegIdx) : State.reset.reg r = 0 := by
  simp [State.reg, State.reset]

/-- Settles O52, by evaluation of the reset state and of the launch of four zeros. -/
theorem resetState : Obligations.ResetState :=
  ⟨reset_reg, fun _ => rfl, rfl, rfl, rfl, rfl, rfl, rfl, rfl, rfl, rfl⟩

/-! ## The launched state -/

/-- The initial PC is the little-endian word of the first four image bytes (70_reset_and_hazards.md R271). -/
theorem launchedState_pc (n : Word) (b0 b1 b2 b3 : Byte) (more : List Byte) :
    (launchedState n (b0 :: b1 :: b2 :: b3 :: more)).pc = b3 ++ b2 ++ b1 ++ b0 := by
  have hword : Memory.readBytes (Memory.writeBytes [] 0 (b0 :: b1 :: b2 :: b3 :: more)) 0 4 = [b0, b1, b2, b3] := by
    simp [Memory.readBytes, read_writeBytes_zeroed]
  rw [launchedState, State.setPc_pc, hword, ofNat_leNat_four]

theorem launchedState_reg_other (n : Word) (image : List Byte) {r : RegIdx} (h : r ≠ .pc) :
    (launchedState n image).reg r = 0 := by
  rw [launchedState, State.setPc_reg_other _ _ h]
  exact reset_reg r

/-- Settles O50: the launched state differs from reset in the image, MEM_SIZE and the initial PC word. -/
theorem launchSetsTheState : Obligations.LaunchSetsTheState := by
  intro n b0 b1 b2 b3 more s h
  obtain ⟨_, himage, -, -, -, -, rfl⟩ := launch_ready h
  cases himage
  exact ⟨launchedState_pc _ _ _ _ _ _, fun r hr => launchedState_reg_other _ _ hr, rfl⟩

/-! ## Launches that do not start the CORE -/

/-- A launch error other than a fault has an exit status of its own (60_exceptions.md R250). -/
theorem endsBeforeReset {n : Nat} {image : Option (List Byte)} {e : Config.ExitOutcome} (h : launch n image = .ended e)
    (hfault : e ≠ .fault) (hsuccess : e ≠ .success) : EndsBeforeReset n image e := by
  refine ⟨h, fun r hl => ⟨?_, hl.1.ne hfault, lawful_ne_success hl hsuccess⟩⟩
  rw [h, LaunchResult.exitStatus]

/-- Settles O51: each clause is the first check of the launch that fails. -/
theorem launchRefusals : Obligations.LaunchRefusals := by
  refine ⟨fun n image hsize => ?size, fun n hsize => ?argument, fun n image hsize hshort => ?short,
    fun n image hsize h4 hword hlarge => ?large⟩
  case size => exact endsBeforeReset (if_pos hsize) (by decide) (by decide)
  case argument => exact endsBeforeReset (if_neg (Nat.not_le.mpr hsize)) (by decide) (by decide)
  case short => simp only [launch, if_neg (Nat.not_le.mpr hsize), if_pos hshort]
  case large =>
    refine endsBeforeReset ?_ (by decide) (by decide)
    have hnotShort : ¬(n < 4 ∨ image.length < 4) := by omega
    simp only [launch, if_neg (Nat.not_le.mpr hsize), if_neg hnotShort, if_pos hlarge]

end Sys2Proof.Proofs
end
